-- ==== Sys2Proof/Word.lean ====
section
/-! DEFINITION. The block's data types: bytes and 16-bit words. A cursor is a natural number: its width `W`
and range `0..C-1`, with `C ≤ 2^W`, only bound it, and its wrap is at `C`, never at `2^W` (R6, R22, R23, R50;
log entry 11). -/

namespace Sys2Proof

/-- A byte of the storage, the peripheral or the line: 0..255 (R12, R21). -/
abbrev Byte := BitVec 8

/-- A 16-bit command word (R65), and the response register's value (R34). -/
abbrev Word := BitVec 16

end Sys2Proof
end

