-- ==== Sys2Proof/Syntax.lean ====
section
/-! DEFINITION. The ten commands of spec/opcode_table.json (30_encoding.md), the contexts that issue
them, and the pseudo-instructions of R75 to R77. -/

namespace Sys2Proof

/-- One constructor per row of the opcode table (R67). Operands are typed, so that a term cannot hold
an operand outside the encoding (R68 to R70). -/
inductive Instr where
  /-- `CFG`: one-time configuration (R81). -/
  | cfg
  /-- `ENQB b`: enqueue one byte (R82, R83). -/
  | enqb (b : Byte)
  /-- `ENQE`: end of one enqueue call (R84). -/
  | enqe
  /-- `PRIME`: synchronous priming pass (R86). -/
  | prime
  /-- `DRAIN`: greedy drain pass (R87, R101). -/
  | drain
  /-- `IEN e`: set the interrupt enable (R88). -/
  | ien (e : Bool)
  /-- `EMPTY`: is the buffer empty (R89). -/
  | empty
  /-- `OCC`: occupancy (R90). -/
  | occ
  /-- `CLRF`: clear the transmit-complete flag (R103). -/
  | clrf
  /-- `IRET`: return from the interrupt context (R104). -/
  | iret
  deriving DecidableEq, Repr

/-- The two execution contexts (R33, R148). -/
inductive Ctx where
  | mainline
  | interrupt
  deriving DecidableEq, Repr

/-- `ENQUEUE "s"`, one `enqueue(bytes)` call: its bytes, then `ENQE` (R75, R77). -/
def enqueueCall (bytes : List Byte) : List Instr :=
  bytes.map Instr.enqb ++ [.enqe]

/-- `WRITE "s"`: `ENQUEUE "s"; PRIME`, with no terminator byte (R76). -/
def writeCall (bytes : List Byte) : List Instr :=
  enqueueCall bytes ++ [.prime]

/-- The handler program, held by the block (R100). -/
def handlerProgram : List Instr := [.drain, .clrf, .iret]

end Sys2Proof
end

