-- ==== Sys2Proof/Decode.lean ====
section
/-! DEFINITION. Command words: the decoder (R65 to R72, R78), then the encoder (R66, R67, R74), and the
host's view of the decoder. -/

namespace Sys2Proof

/-- `w[15:12]` (R66). -/
def opField (w : Word) : BitVec 4 := w.extractLsb' 12 4

/-- `w[11:8]`, reserved, must be zero (R66, R72). -/
def zField (w : Word) : BitVec 4 := w.extractLsb' 8 4

/-- `w[7:0]` (R66). -/
def immField (w : Word) : BitVec 8 := w.extractLsb' 0 8

/-- Why a word is illegal (R71, R72). -/
inductive Illegal where
  /-- A reserved bit of `z` is set (R72). -/
  | reservedZ
  /-- `op` is `0x0` or `0xB`..`0xF` (R71). -/
  | noOperation
  /-- A bit of `imm8` that the operation does not use is set (R72). -/
  | reservedImm
  deriving DecidableEq, Repr

/-- A command without operand: `imm8` must be `0x00` (R70, R72). -/
def noOperand (w : Word) (i : Instr) : Except Illegal Instr :=
  if immField w = 0#8 then .ok i else .error .reservedImm

/-- `IEN`: `imm8[0]` is the operand, `imm8[7:1]` must be zero (R69, R72). -/
def enableOperand (w : Word) : Except Illegal Instr :=
  if (immField w).extractLsb' 1 7 = 0#7 then .ok (.ien ((immField w).getLsbD 0))
  else .error .reservedImm

/-- The operation of an `op` number (R67), with its operand check (R68 to R70). -/
def decodeOp (w : Word) : Except Illegal Instr :=
  match (opField w).toNat with
  | 1 => noOperand w .cfg
  | 2 => .ok (.enqb (immField w))
  | 3 => noOperand w .enqe
  | 4 => noOperand w .prime
  | 5 => noOperand w .drain
  | 6 => enableOperand w
  | 7 => noOperand w .empty
  | 8 => noOperand w .occ
  | 9 => noOperand w .clrf
  | 10 => noOperand w .iret
  | _ => .error .noOperation

/-- The decoder, total on every 16-bit word: `Illegal` if `z ≠ 0`, else by `op`, then the operand
check (R78). -/
def decode (w : Word) : Except Illegal Instr :=
  if zField w = 0#4 then decodeOp w else .error .reservedZ

/-- The operation number of a command (R67). -/
def Instr.opNumber : Instr → BitVec 4
  | .cfg => 0x1#4
  | .enqb _ => 0x2#4
  | .enqe => 0x3#4
  | .prime => 0x4#4
  | .drain => 0x5#4
  | .ien _ => 0x6#4
  | .empty => 0x7#4
  | .occ => 0x8#4
  | .clrf => 0x9#4
  | .iret => 0xA#4

/-- The operand byte of a command (R68 to R70). -/
def Instr.operandByte : Instr → BitVec 8
  | .cfg => 0x00#8
  | .enqb b => b
  | .enqe => 0x00#8
  | .prime => 0x00#8
  | .drain => 0x00#8
  | .ien false => 0x00#8
  | .ien true => 0x01#8
  | .empty => 0x00#8
  | .occ => 0x00#8
  | .clrf => 0x00#8
  | .iret => 0x00#8

/-- `word = (op << 12) | imm8` (R74): the fields of R66, `z` zero. -/
def encode (i : Instr) : Word := i.opNumber ++ 0x0#4 ++ i.operandByte

/-- The host's view of the decoder: a word of the opcode table, in `nbits` bits. A command is one
16-bit word (R65); a longer one does not exist. -/
def decodeTableWord (nbits w : Nat) : Option Instr :=
  if nbits ≤ 16 ∧ w < 2 ^ nbits then (decode (BitVec.ofNat 16 w)).toOption else none

end Sys2Proof
end

