-- ==== Sys2Proof/Config.lean ====
section
/-! DEFINITION. The parameters of a model instance (00_scope.md R5 to R11), the turns a schedule
names, and the free values. -/

namespace Sys2Proof

/-- `ENQ_POLICY` (R7). -/
inductive EnqPolicy where
  | nonblocking
  | blocking
  deriving DecidableEq, Repr

/-- `TC_POLICY` (R9). -/
inductive TcPolicy where
  | perByte
  | onIdle
  deriving DecidableEq, Repr

/-- The parameters of one model instance that its steps read. They are arguments of the model (R43),
fixed for its life (R7, R152): no step writes them (log entry 1). -/
structure Params where
  /-- `C`, the number of slots of the storage (R5). -/
  capacity : Nat
  /-- `W`, the width of a cursor in bits (R6). -/
  cursorWidth : Nat
  /-- `ENQ_POLICY` (R7). -/
  enqPolicy : EnqPolicy
  /-- `D_TX`, how many bytes the peripheral holds (R8). -/
  dTx : Nat
  /-- `TC_POLICY` (R9). -/
  tcPolicy : TcPolicy
  /-- `ISR_ATOMIC_WRT_LINE` (R10). -/
  isrAtomic : Bool
  deriving DecidableEq, Repr

/-- The spec's defaults: C = 200 (R5), W = 8 (R6), NONBLOCKING (R7), PER_BYTE (R9), false (R10).
`D_TX` is OPEN (R8): the 1 is a DESIGN CHOICE (log entry 2). -/
def Params.default : Params where
  capacity := 200
  cursorWidth := 8
  enqPolicy := .nonblocking
  dTx := 1
  tcPolicy := .perByte
  isrAtomic := false

/-- A parameter that a refused configuration names (R131). -/
inductive ParamName where
  | capacity
  | cursorWidth
  | dTx
  deriving DecidableEq, Repr

/-- Whose step is next: one of the three agents of R4, or interrupt entry (R141). -/
inductive Turn where
  | handler
  | entry
  | mainline
  | line
  deriving DecidableEq, Repr, Inhabited

/-- FREE VALUE. The turn taken at the n-th agent step when the written schedule has ended: the spec leaves
the schedule open (R43, R56, R142, R146; log entry 4). -/
opaque Config.freeTurn : Nat → Turn

/-- FREE VALUE. `BAUD - 1` (R11): OPEN, no value given. -/
opaque Config.baudPred : Nat

/-- `BAUD`, a positive number of bits per second (R11, D32). No rule reads it (log entry 15). -/
def Config.baud : Nat := Config.baudPred + 1

end Sys2Proof
end

