-- ==== Sys2Proof/Machine/State.lean ====
section
/-! DEFINITION. The complete state of a model instance (10_state.md R20 to R40), the arguments it runs
on (R43), the reasons a step can stop, and reset (R160). -/

namespace Sys2Proof.Machine

/-- The storage `storage[0..C-1]` (R21): the written slots, as pairs of index and byte, indices strictly
rising. An index that is not listed is an *unwritten* slot: it holds no value (R21, R138). -/
abbrev Memory := List Host.Cell

/-- The micro-state of a drain pass (R35, R36): the label of its next step, and the local `b` once S3 has
loaded it. -/
inductive DrainLabel where
  | s1
  | s2
  | s3
  | s4 (b : Byte)
  deriving DecidableEq, Repr

/-- `mstate`, the mainline micro-state (R35): `Idle`, or the label of the next step of the command at `pc`
and its locals. `r` is absent where the command never loads it (BLOCKING, R83; log entry 17). -/
inductive MState where
  | idle
  | enqbS1
  | enqbS2 (r n : Nat)
  | enqbS3 (r : Option Nat) (n : Nat)
  | enqbS4 (r : Option Nat) (n : Nat)
  | primeP1
  | primeP2 (d : DrainLabel)
  | primeP3
  | drain (d : DrainLabel)
  deriving DecidableEq, Repr

/-- `hstate`, the handler micro-state (R36): the position in `DRAIN; CLRF; IRET` (R100). -/
inductive HState where
  | drain (d : DrainLabel)
  | clrf
  | iret
  deriving DecidableEq, Repr

/-- An event of the history (R40). -/
inductive Event where
  | enq (b : Byte)
  | drop (b : Byte)
  | push (b : Byte)
  | tx (b : Byte)
  | tcSet
  | tcClr
  | enter
  | ret
  deriving DecidableEq, Repr

/-- The value of `fault` once a step has raised one: the code and the `info` of R130's table. -/
inductive FaultRecord where
  /-- Code 1, `F_ILLEGAL` (R132). -/
  | illegal (pc : Nat) (word : Word)
  /-- Code 2, `F_CONTEXT` (R135). -/
  | context (pc : Nat) (word : Word)
  /-- Code 3, `F_NOT_CONFIGURED` (R133). -/
  | notConfigured (pc : Nat) (word : Word)
  /-- Code 4, `F_RECONFIGURE` (R134). -/
  | reconfigure (pc : Nat)
  /-- Code 5, `F_DRAIN_RACE` (R136). -/
  | drainRace (pc : Nat)
  /-- Code 6, `F_PUSH_NOT_READY` (R137). -/
  | pushNotReady (byte : Byte)
  /-- Code 7, `F_UNWRITTEN_SLOT` (R138). -/
  | unwrittenSlot (index : Nat)
  deriving DecidableEq, Repr

/-- Why the machine stops: no agent's step follows. -/
inductive Fault where
  /-- Raised by `step` and every meaning in a state whose `fault` is set: no agent steps (R39, R130). Safe. -/
  | halted (r : FaultRecord)
  /-- Raised by `step` in a quiescent state that is not final (R153): stuck. Safe. -/
  | stuck
  /-- Raised by `ENQB` S3 and the drain pass S3 at a storage index outside `0..C-1`, which no
  reachable state has (R48, R55; log entry 12). Safe. -/
  | noSuchSlot (index : Nat)
  /-- Raised by the host's read of `rsp` while it is unwritten (R34, R152). Safe. -/
  | rspUnwritten
  deriving DecidableEq, Repr

/-- Why an instruction has no meaning in a state. -/
inductive Refusal where
  /-- Raised by `exec`'s arm of an instruction that has no meaning yet. Safe. -/
  | notModelled (mnemonic : String)
  /-- Raised by `step` and `build`, before any step: a parameter breaks R5, R6 or R8 (R131). Safe. -/
  | refusedConfig (p : ParamName)
  /-- Raised by a meaning run while `mstate` or `hstate` stands inside another command, which no state
  of the machine has: `mstate` is that of the command at `pc` (R35; log entry 14). Safe. -/
  | otherCommandInProgress
  deriving DecidableEq, Repr

/-- The state: R20's elements, then the arguments of R43 the step reads. -/
structure State where
  /-- `storage` (R21). -/
  storage : Memory
  /-- `wc`, the write cursor (R22). -/
  wc : Nat
  /-- `rc`, the read cursor (R23). -/
  rc : Nat
  /-- `trunc`, the truncation latch (R28). -/
  trunc : Bool
  /-- `ie`, the transmit-complete interrupt enable (R29). -/
  ie : Bool
  /-- `cfg`, configured (R30). -/
  cfg : Bool
  /-- `tc`, the transmit-complete flag (R31). -/
  tc : Bool
  /-- `txen`, transmit enabled (R32). -/
  txen : Bool
  /-- `ctx`, which context owns the core (R33). -/
  ctx : Ctx
  /-- `rsp`, the response register, or unwritten (R34). -/
  rsp : Option Word
  /-- `pc`, the index of the mainline command (R26). -/
  pc : Nat
  /-- `mstate` (R35). -/
  mstate : MState
  /-- `hstate` (R36). -/
  hstate : HState
  /-- `txq`, the bytes the peripheral holds, oldest first (R37). -/
  txq : List Byte
  /-- `line_out`, the bytes the line has carried (R38). -/
  lineOut : List Byte
  /-- `fault` (R39). -/
  fault : Option FaultRecord
  /-- `hist`, the event history (R40). -/
  hist : List Event
  /-- The parameters (R43; log entry 1). -/
  params : Params
  /-- `prog`, the mainline command stream (R43, R152; log entry 3). -/
  prog : List Word
  /-- The schedule as far as it is written down: whose turn is next, first to last (R43; log entry 4). -/
  sched : List Turn
  /-- How many agent steps were taken: the argument of the free choice (log entry 4). -/
  tick : Nat
  deriving DecidableEq, Repr

/-- Reset (R160): every element of R20 at the value its rule gives. The parameters are the spec's defaults
(log entries 1 and 2), no program is loaded (log entry 3) and no turn is written down (log entry 4). -/
def State.reset : State where
  storage := []
  wc := 0
  rc := 0
  trunc := false
  ie := false
  cfg := false
  tc := false
  txen := false
  ctx := .mainline
  rsp := none
  pc := 0
  mstate := .idle
  hstate := .drain .s1
  txq := []
  lineOut := []
  fault := none
  hist := []
  params := .default
  prog := []
  sched := []
  tick := 0

/-- The outcome of one step. -/
abbrev StepOutcome := Host.Outcome State Fault Refusal

end Sys2Proof.Machine
end

