-- ==== Sys2Proof/Machine/Flags.lean ====
section
/-! DEFINITION. The status bits as they are computed: the interrupt request, the truncation latch, the
enable, the transmit-complete flag (10_state.md R28 to R32, R41; 42_peripheral.md R116, R119, R120). -/

namespace Sys2Proof.Machine

/-- `irq = cfg ∧ ie ∧ tc`, the combinational interrupt request (R41). -/
def State.irq (s : State) : Bool := s.cfg && s.ie && s.tc

/-- `ready()`: `1` iff `txen = 1` and `|txq| < D_TX` (R116). -/
def State.ready (s : State) : Bool := s.txen && decide (s.txq.length < s.params.dTx)

/-- The configurator's two invariants and its own bit: `txen`, `ie`, `cfg <- 1` (R81). -/
def State.configure (s : State) : State := { s with txen := true, ie := true, cfg := true }

/-- `interrupt_enable(e)`, the write of `ie` (R122). -/
def State.setEnable (s : State) (e : Bool) : State := { s with ie := e }

/-- The write of the truncation latch (R28). -/
def State.setTrunc (s : State) (v : Bool) : State := { s with trunc := v }

/-- Whether a byte that finishes sets `tc`, from what `txq` holds after its removal: always under PER_BYTE
(R119), only when nothing is left under ON_IDLE (R120). -/
def setsTc (policy : TcPolicy) (left : List Byte) : Bool :=
  match policy with
  | .perByte => true
  | .onIdle => left.isEmpty

end Sys2Proof.Machine
end

