-- ==== Sys2Proof/Machine/Operands.lean ====
section
/-! DEFINITION. The arithmetic of the commands' operands: cursors, occupancy, zero extension
(20_memory.md R50 to R52, 00_scope.md R12). -/

namespace Sys2Proof.Machine

/-- `next(i) = (i + 1) mod C` (R50). -/
def nextCursor (capacity : Nat) (i : Nat) : Nat := (i + 1) % capacity

/-- `occ(w, r) = (w - r) mod C`, the mathematical remainder (R51, R12): the difference is taken in the
integers, so it is never first reduced modulo `2^W`. -/
def occupancy (capacity : Nat) (w r : Nat) : Nat :=
  (((w : Int) - (r : Int)) % (capacity : Int)).toNat

/-- `zext_16(v)` (R12); exact for every occupancy value, since `C ≤ 65536` (R5). -/
def zext16 (v : Nat) : Word := BitVec.ofNat 16 v

/-- `zext_16` of a truth value, `0` or `1` (R12, R34). -/
def zext16Bool (v : Bool) : Word := if v then 1#16 else 0#16

/-- `next(i)` under the parameters of the state. -/
def State.next (s : State) (i : Nat) : Nat := nextCursor s.params.capacity i

/-- `occ(wc, rc)` of the state: the number of bytes queued. -/
def State.occ (s : State) : Nat := occupancy s.params.capacity s.wc s.rc

/-- The buffer is empty iff `wc = rc` (R52). -/
def State.isEmpty (s : State) : Bool := s.rc == s.wc

/-- The buffer is full iff `next(wc) = rc` (R52). -/
def State.isFull (s : State) : Bool := s.next s.wc == s.rc

end Sys2Proof.Machine
end

