-- ==== Sys2Proof/WellFormed.lean ====
section
/-! DEFINITION. What is checked of the model's arguments: the parameters (R131), and which context may
issue which command (R73, R148). An instruction's operands need no check: their types hold exactly the
values the encoding has (R68 to R70). -/

namespace Sys2Proof

/-- The first parameter that refuses the configuration, if any (R131): `C < 2`, `C > 65536` (R5),
`2^W < C`, `W > 16` (R6), `D_TX < 1` (R8). Where several parameters break their bounds, naming the first of
`C`, `W`, `D_TX` is a DESIGN CHOICE: no rule gives an order (log entry 24). -/
def Params.check (p : Params) : Option ParamName :=
  if p.capacity < 2 ∨ 65536 < p.capacity then some .capacity
  else if 16 < p.cursorWidth ∨ 2 ^ p.cursorWidth < p.capacity then some .cursorWidth
  else if p.dTx < 1 then some .dTx
  else none

/-- Whether a context may execute a command (R148's table; R73). -/
def Instr.issuableIn : Ctx → Instr → Bool
  | .mainline, .cfg => true
  | .mainline, .enqb _ => true
  | .mainline, .enqe => true
  | .mainline, .prime => true
  | .mainline, .drain => true
  | .mainline, .ien _ => true
  | .mainline, .empty => true
  | .mainline, .occ => true
  | .mainline, .clrf => false
  | .mainline, .iret => false
  | .interrupt, .cfg => false
  | .interrupt, .enqb _ => false
  | .interrupt, .enqe => false
  | .interrupt, .prime => false
  | .interrupt, .drain => true
  | .interrupt, .ien _ => false
  | .interrupt, .empty => false
  | .interrupt, .occ => false
  | .interrupt, .clrf => true
  | .interrupt, .iret => true

end Sys2Proof
end

