-- ==== Sys2Proof/Machine/Ops.lean ====
section
/-! DEFINITION. The operations the meanings share: the storage, the history, command completion, raising
a model fault, the prologue, interrupt entry and return, the peripheral's primitives and the drain pass. -/

namespace Sys2Proof.Machine

/-! ### Storage (20_memory.md R45, R49, R53) -/

/-- The canonical form of the storage: indices strictly rising. Every listed slot is written, so no entry
equals what an unlisted index reads as. -/
def Memory.wf : Memory → Bool
  | [] => true
  | [_] => true
  | c :: d :: m => decide (c.1 < d.1) && Memory.wf (d :: m)

/-- The byte of a slot, or none where it is unwritten (R21). -/
def Memory.read : Memory → Nat → Option Byte
  | [], _ => none
  | c :: m, i => if c.1 = i then some c.2 else Memory.read m i

/-- Writing a slot (R21): an earlier byte is overwritten, a new slot is listed in its place. -/
def Memory.write : Memory → Nat → Byte → Memory
  | [], i, b => [(i, b)]
  | c :: m, i, b =>
    if c.1 = i then (i, b) :: m
    else if i < c.1 then (i, b) :: c :: m
    else c :: Memory.write m i b

/-- What a storage access of one byte meets: a byte, an unwritten slot, or an index that is no slot. -/
inductive Slot where
  | byte (b : Byte)
  | unwritten
  | noSuchSlot
  deriving DecidableEq, Repr

/-- `MemRead(i, 1)` (R13, R49): an index outside `0..C-1` is no slot (R45, R48). -/
def memRead (s : State) (i : Nat) : Slot :=
  if i < s.params.capacity then
    match Memory.read s.storage i with
    | some b => .byte b
    | none => .unwritten
  else .noSuchSlot

/-- `MemWrite(i, 1, v)` for an index `i` in `0..C-1` (R13, R49). -/
def memWrite (s : State) (i : Nat) (v : Byte) : State :=
  { s with storage := Memory.write s.storage i v }

/-! ### History, completion, faults -/

/-- `hist <- hist ++ [e]` (R40). -/
def State.log (s : State) (e : Event) : State := { s with hist := s.hist ++ [e] }

/-- A mainline command completes: `pc <- pc + 1`, after which `mstate = Idle` (R27, R80). -/
def State.complete (s : State) : State := { s with pc := s.pc + 1, mstate := .idle }

/-- `goto` another step of the mainline command: the micro-state it waits at (R14, R35). -/
def State.goto (s : State) (m : MState) : State := { s with mstate := m }

/-- The code of a model fault (R130). -/
def FaultRecord.code : FaultRecord → Nat
  | .illegal _ _ => 1
  | .context _ _ => 2
  | .notConfigured _ _ => 3
  | .reconfigure _ => 4
  | .drainRace _ => 5
  | .pushNotReady _ => 6
  | .unwrittenSlot _ => 7

/-- TAKING A FAULT. `raise Fault(code)`: `fault <- (code, info)`, every other element as before the step
(R130); a fault that stands is never overwritten (R39). -/
def State.raise (s : State) (r : FaultRecord) : State :=
  match s.fault with
  | none => { s with fault := some r }
  | some _ => s

/-! ### The interrupt (60_exceptions.md R140 to R144) -/

/-- TAKING THE INTERRUPT (R141). Nothing is saved but the mainline's own position, kept in place. -/
def State.enterInterrupt (s : State) : State :=
  { s with ctx := .interrupt, hstate := .drain .s1, hist := s.hist ++ [.enter] }

/-- RETURNING FROM THE INTERRUPT (R104, R144). -/
def State.returnFromInterrupt (s : State) : State :=
  { s with ctx := .mainline, hstate := .drain .s1, hist := s.hist ++ [.ret] }

/-- `clear_interrupt_flag()` (R103, R123). -/
def State.clearFlag (s : State) : State :=
  { s with tc := false, hist := s.hist ++ [.tcClr] }

/-- Interrupt entry is enabled (R140): `fault = none`, `ctx = MAINLINE`, `irq = 1`. -/
def State.entryEnabled (s : State) : Bool :=
  s.fault.isNone && decide (s.ctx = .mainline) && s.irq

/-! ### Who may run a command -/

/-- A step of command `i` by the agent that owns the core: no agent steps while `fault ≠ none` (R130), and a
legal word issued by the wrong agent raises `F_CONTEXT` (R73, R148; log entries 13 and 18). -/
def issue (i : Instr) (s : State) (body : StepOutcome) : StepOutcome :=
  match s.fault with
  | some r => .fault (.halted r)
  | none => if i.issuableIn s.ctx then body else .next (s.raise (.context s.pc (encode i)))

/-- The prologue's last check (R80): `F_NOT_CONFIGURED` for a command other than `CFG` while `cfg = 0`. The
checks before it are the decoder's, at the fetch, and `issue`'s (R146). -/
def prologue (i : Instr) (s : State) (body : StepOutcome) : StepOutcome :=
  if s.cfg = false ∧ i ≠ .cfg then .next (s.raise (.notConfigured s.pc (encode i))) else body

/-- A mainline command of one step (R80): the prologue and the step, from `mstate = Idle`. -/
def oneStep (i : Instr) (s : State) (body : StepOutcome) : StepOutcome :=
  issue i s <|
    match s.mstate with
    | .idle => prologue i s body
    | .enqbS1 | .enqbS2 _ _ | .enqbS3 _ _ | .enqbS4 _ _ | .primeP1 | .primeP2 _ | .primeP3
    | .drain _ => .refused .otherCommandInProgress

/-! ### The peripheral (42_peripheral.md) -/

/-- `push(b)` (R117): the byte joins the transmit queue, or the fault it raises when not ready. -/
def push (s : State) (b : Byte) : Except FaultRecord State :=
  if s.ready then .ok { s with txq := s.txq ++ [b] } else .error (.pushNotReady b)

/-- `line_step()` on the byte at the head of `txq` (R118): onto the line, then `tc` as `TC_POLICY` says. -/
def transmit (s : State) (b : Byte) (rest : List Byte) : State :=
  let sent := { s with txq := rest, lineOut := s.lineOut ++ [b], hist := s.hist ++ [.tx b] }
  if setsTc s.params.tcPolicy rest then { sent with tc := true, hist := sent.hist ++ [.tcSet] }
  else sent

/-- `line_step()` (R118); without a byte to send `LINE` has no step and nothing changes. -/
def lineStep (s : State) : State :=
  match s.txq with
  | [] => s
  | b :: rest => transmit s b rest

/-! ### The drain pass (41_drainer.md R101) -/

/-- What one step of a drain pass does: go on at a label, exit, raise a fault, or stop. -/
inductive PassResult where
  | goto (d : DrainLabel) (s : State)
  | exit (s : State)
  | raised (r : FaultRecord)
  | stop (f : Fault)
  deriving DecidableEq, Repr

/-- S3: `b <- MemRead(rc, 1)`, `push(b)`, `Push(b)`, `goto S4` (R101). -/
def passS3 (s : State) : PassResult :=
  match memRead s s.rc with
  | .noSuchSlot => .stop (.noSuchSlot s.rc)
  | .unwritten => .raised (.unwrittenSlot s.rc)
  | .byte b =>
    match push s b with
    | .error r => .raised r
    | .ok pushed => .goto (.s4 b) (pushed.log (.push b))

/-- One step of the drain pass (R101), shared by the handler, `PRIME` and a mainline `DRAIN` (R106). -/
def drainPass (d : DrainLabel) (s : State) : PassResult :=
  match d with
  | .s1 => if s.ready then .goto .s2 s else .exit s
  | .s2 => if s.rc = s.wc then .exit s else .goto .s3 s
  | .s3 => passS3 s
  | .s4 _ => .goto .s1 { s with rc := s.next s.rc }

/-- One step of a drain pass inside a command: where the command waits while the pass goes on, and what
follows the pass's exit, in the same step (R101). -/
def runPass (d : DrainLabel) (s : State) (going : DrainLabel → State → State)
    (exited : State → State) : StepOutcome :=
  match drainPass d s with
  | .goto d' s' => .next (going d' s')
  | .exit s' => .next (exited s')
  | .raised r => .next (s.raise r)
  | .stop f => .fault f

end Sys2Proof.Machine
end

