-- ==== Sys2Proof/Machine/Drainer.lean ====
section
/-! DEFINITION. The drain commands and the handler's commands: `PRIME`, `DRAIN`, `CLRF`, `IRET`
(40_producer.md R86, R87; 41_drainer.md). -/

namespace Sys2Proof.Machine

/-- `PRIME` P1 (R86): `ie <- 0`, then the pass. -/
def primeP1 (s : State) : StepOutcome := .next ((s.setEnable false).goto (.primeP2 .s1))

/-- `PRIME` P2 (R86): one step of the drain pass in the mainline context; its exit goes to P3. -/
def primeP2 (d : DrainLabel) (s : State) : StepOutcome :=
  runPass d s (fun d' s' => s'.goto (.primeP2 d')) (fun s' => s'.goto .primeP3)

/-- `PRIME` P3 (R86): `ie <- 1`, unconditionally, and done. -/
def primeP3 (s : State) : StepOutcome := .next (s.setEnable true).complete

/-- `PRIME` (R86), at the step `mstate` names. -/
def execPrime (s : State) : StepOutcome :=
  issue .prime s <|
    match s.mstate with
    | .idle => prologue .prime s (primeP1 s)
    | .primeP1 => primeP1 s
    | .primeP2 d => primeP2 d s
    | .primeP3 => primeP3 s
    | .enqbS1 | .enqbS2 _ _ | .enqbS3 _ _ | .enqbS4 _ _ | .drain _ =>
      .refused .otherCommandInProgress

/-- One step of the drain pass of a mainline `DRAIN` (R87); its exit completes the command. -/
def drainMainlinePass (d : DrainLabel) (s : State) : StepOutcome :=
  runPass d s (fun d' s' => s'.goto (.drain d')) State.complete

/-- A mainline `DRAIN` (R87), at the step `mstate` names: S0 raises `F_DRAIN_RACE` if `ie = 1`, and the pass's
S1 is in the same step (R80, R77; log entry 9). -/
def drainMainline (s : State) : StepOutcome :=
  match s.mstate with
  | .idle =>
    prologue .drain s <|
      if s.ie then .next (s.raise (.drainRace s.pc)) else drainMainlinePass .s1 s
  | .drain d => drainMainlinePass d s
  | .enqbS1 | .enqbS2 _ _ | .enqbS3 _ _ | .enqbS4 _ _ | .primeP1 | .primeP2 _ | .primeP3 =>
    .refused .otherCommandInProgress

/-- The handler's `DRAIN` (R100, R101), at the step `hstate` names; its exit starts `CLRF`. -/
def drainHandler (s : State) : StepOutcome :=
  match s.hstate with
  | .drain d =>
    runPass d s (fun d' s' => { s' with hstate := .drain d' }) (fun s' => { s' with hstate := .clrf })
  | .clrf | .iret => .refused .otherCommandInProgress

/-- `DRAIN` (R87 in the mainline, R101 in the handler). -/
def execDrain (s : State) : StepOutcome :=
  issue .drain s <|
    match s.ctx with
    | .mainline => drainMainline s
    | .interrupt => drainHandler s

/-- `CLRF` (R103): `tc <- 0`, `TcClr`, then `IRET`. -/
def execClrf (s : State) : StepOutcome :=
  issue .clrf s <|
    match s.hstate with
    | .clrf => .next { s.clearFlag with hstate := .iret }
    | .drain _ | .iret => .refused .otherCommandInProgress

/-- `IRET` (R104): `ctx <- MAINLINE`, `Ret`, the handler back at its start. -/
def execIret (s : State) : StepOutcome :=
  issue .iret s <|
    match s.hstate with
    | .iret => .next s.returnFromInterrupt
    | .drain _ | .clrf => .refused .otherCommandInProgress

end Sys2Proof.Machine
end

