-- ==== Sys2Proof/Machine/Producer.lean ====
section
/-! DEFINITION. The producer's commands of one step and the enqueue commands: `CFG`, `ENQB`, `ENQE`, `IEN`,
`EMPTY`, `OCC` (40_producer.md). -/

namespace Sys2Proof.Machine

/-- `CFG` (R81): `F_RECONFIGURE` if `cfg = 1`, else `txen`, `ie`, `cfg <- 1`. -/
def execCfg (s : State) : StepOutcome :=
  oneStep .cfg s <|
    if s.cfg then .next (s.raise (.reconfigure s.pc)) else .next s.configure.complete

/-- A byte is refused: `Drop(b)` and the command completes (R82 S1, S2). -/
def dropByte (b : Byte) (s : State) : State := (s.log (.drop b)).complete

/-- `ENQB` S1 (R82; R83 under BLOCKING, where a full buffer holds the mainline: no step, so nothing
changes; log entry 8). -/
def enqbS1 (b : Byte) (s : State) : StepOutcome :=
  match s.params.enqPolicy with
  | .nonblocking =>
    if s.trunc then .next (dropByte b s) else .next (s.goto (.enqbS2 s.rc (s.next s.wc)))
  | .blocking =>
    if s.isFull then .next s else .next (s.goto (.enqbS3 none (s.next s.wc)))

/-- `ENQB` S2 (R82): full as of the snapshot `r`? R83 has no S2 under BLOCKING (log entry 14). -/
def enqbS2 (b : Byte) (r n : Nat) (s : State) : StepOutcome :=
  match s.params.enqPolicy with
  | .nonblocking =>
    if n = r then .next (dropByte b (s.setTrunc true)) else .next (s.goto (.enqbS3 (some r) n))
  | .blocking => .refused .otherCommandInProgress

/-- `ENQB` S3 (R82, R83): `MemWrite(wc, 1, b)`. -/
def enqbS3 (b : Byte) (r : Option Nat) (n : Nat) (s : State) : StepOutcome :=
  if s.wc < s.params.capacity then .next ((memWrite s s.wc b).goto (.enqbS4 r n))
  else .fault (.noSuchSlot s.wc)

/-- `ENQB` S4 (R82, R83): `wc <- n`, `Enq(b)`, done. -/
def enqbS4 (b : Byte) (n : Nat) (s : State) : StepOutcome :=
  .next (({ s with wc := n }.log (.enq b)).complete)

/-- `ENQB b` (R82 under NONBLOCKING, R83 under BLOCKING), at the step `mstate` names. -/
def execEnqb (b : Byte) (s : State) : StepOutcome :=
  issue (.enqb b) s <|
    match s.mstate with
    | .idle => prologue (.enqb b) s (enqbS1 b s)
    | .enqbS1 => enqbS1 b s
    | .enqbS2 r n => enqbS2 b r n s
    | .enqbS3 r n => enqbS3 b r n s
    | .enqbS4 _ n => enqbS4 b n s
    | .primeP1 | .primeP2 _ | .primeP3 | .drain _ => .refused .otherCommandInProgress

/-- `ENQE` (R84): `trunc <- 0`. -/
def execEnqe (s : State) : StepOutcome :=
  oneStep .enqe s (.next (s.setTrunc false).complete)

/-- `IEN e` (R88): `ie <- e`. -/
def execIen (e : Bool) (s : State) : StepOutcome :=
  oneStep (.ien e) s (.next (s.setEnable e).complete)

/-- `EMPTY` (R89): `rsp <- zext_16(wc = rc)`. -/
def execEmpty (s : State) : StepOutcome :=
  oneStep .empty s (.next { s with rsp := some (zext16Bool s.isEmpty) }.complete)

/-- `OCC` (R90): `rsp <- zext_16(occ(wc, rc))`. -/
def execOcc (s : State) : StepOutcome :=
  oneStep .occ s (.next { s with rsp := some (zext16 s.occ) }.complete)

end Sys2Proof.Machine
end

