-- ==== Sys2Proof/Machine/Dispatch.lean ====
section
/-! DEFINITION. One arm per command: the next atomic step of the command in the state. -/

namespace Sys2Proof.Machine

def exec (i : Instr) (s : State) : Host.Outcome State Fault Refusal :=
  match i with
  | .cfg => Sys2Proof.Machine.execCfg s
  | .enqb b => Sys2Proof.Machine.execEnqb b s
  | .enqe => Sys2Proof.Machine.execEnqe s
  | .prime => Sys2Proof.Machine.execPrime s
  | .drain => Sys2Proof.Machine.execDrain s
  | .ien e => Sys2Proof.Machine.execIen e s
  | .empty => Sys2Proof.Machine.execEmpty s
  | .occ => Sys2Proof.Machine.execOcc s
  | .clrf => Sys2Proof.Machine.execClrf s
  | .iret => Sys2Proof.Machine.execIret s

end Sys2Proof.Machine
end

