-- ==== Sys2Proof/Machine/Agents.lean ====
section
/-! DEFINITION. The agents (R4): when each has an enabled step, what its step is, and how the schedule
chooses among the enabled ones. -/

namespace Sys2Proof.Machine

/-- The word at `pc` of the command stream, if there is one (R26, R80, R91). -/
def State.fetch (s : State) : Option Word := s.prog[s.pc]?

/-- Whether a decoded word is an `ENQB`. -/
def isEnqb : Except Illegal Instr → Bool
  | .ok (.enqb _) => true
  | .ok _ => false
  | .error _ => false

/-- The command at `pc` is an `ENQB`. -/
def State.atEnqb (s : State) : Bool :=
  match s.fetch with
  | some w => isEnqb (decode w)
  | none => false

/-- `MAINLINE` stands at `ENQB`'s S1: at the label itself, or before a prologue that goes on to it (R80). -/
def State.atEnqbS1 (s : State) : Bool :=
  match s.mstate with
  | .idle => s.cfg && s.atEnqb
  | .enqbS1 => s.atEnqb
  | .enqbS2 _ _ | .enqbS3 _ _ | .enqbS4 _ _ | .primeP1 | .primeP2 _ | .primeP3 | .drain _ => false

/-- The BLOCKING hold (R83): at S1 of `ENQB` while `next(wc) = rc`, `MAINLINE` has no enabled step. -/
def State.holds (s : State) : Bool :=
  decide (s.params.enqPolicy = .blocking) && s.atEnqbS1 && s.isFull

/-- Which turns have an enabled step (R33, R80, R83, R91, R105, R118, R121, R140). -/
def State.enabled (s : State) : Turn → Bool
  | .handler => s.fault.isNone && decide (s.ctx = .interrupt)
  | .entry => s.entryEnabled
  | .mainline =>
    s.fault.isNone && decide (s.ctx = .mainline) && decide (s.pc < s.prog.length) && !s.holds
  | .line =>
    s.fault.isNone && s.txen && !s.txq.isEmpty
      && !(s.params.isrAtomic && decide (s.ctx = .interrupt))

/-- The turns with an enabled step. -/
def State.enabledTurns (s : State) : List Turn :=
  [Turn.handler, Turn.entry, Turn.mainline, Turn.line].filter s.enabled

/-- The turn the schedule names next: its head, or the free choice where it has ended (log entry 4). -/
def State.namedTurn (s : State) : Turn :=
  match s.sched with
  | t :: _ => t
  | [] => Config.freeTurn s.tick

/-- The turn taken: the only enabled one; of several, the one the schedule names, and the first of them where
it names one that is not enabled (log entry 5). -/
def State.chosenTurn (s : State) : Option Turn :=
  match s.enabledTurns with
  | [] => none
  | [t] => some t
  | t :: u :: ts => if s.namedTurn ∈ t :: u :: ts then some s.namedTurn else some t

/-- The schedule after an agent step: its head is used up. -/
def State.spend (s : State) : State := { s with sched := s.sched.tail, tick := s.tick + 1 }

/-- A mainline step on a fetched word: the command at `pc`, or `F_ILLEGAL` from the prologue (R80, R132). -/
def runWord (w : Word) (s : State) : StepOutcome :=
  match decode w with
  | .ok i => exec i s
  | .error _ =>
    match s.mstate with
    | .idle => .next (s.raise (.illegal s.pc w))
    | .enqbS1 | .enqbS2 _ _ | .enqbS3 _ _ | .enqbS4 _ _ | .primeP1 | .primeP2 _ | .primeP3
    | .drain _ => .refused .otherCommandInProgress

/-- A step of `MAINLINE` (R80); it is enabled only with a command at `pc`. -/
def mainlineStep (s : State) : StepOutcome :=
  match s.fetch with
  | some w => runWord w s
  | none => .fault .stuck

/-- The command of the handler program at `hstate` (R36, R100). -/
def HState.command : HState → Instr
  | .drain _ => .drain
  | .clrf => .clrf
  | .iret => .iret

/-- A step of `HANDLER` (R100). -/
def handlerStep (s : State) : StepOutcome := exec s.hstate.command s

/-- Handler steps until `IRET` hands the core back, or a fault is raised, at most so many (R105). -/
def runHandler : Nat → State → StepOutcome
  | 0, s => .next s
  | k + 1, s =>
    if s.enabled .handler then
      match handlerStep s with
      | .next s' => runHandler k s'
      | .fault f => .fault f
      | .refused r => .refused r
    else .next s

/-- More handler steps than a handler run has without a `LINE` step inside: four a byte the peripheral can take,
the pass's last two, `CLRF` and `IRET`. -/
def State.handlerFuel (s : State) : Nat := 4 * s.params.dTx + 8

/-- The step of a turn. With `ISR_ATOMIC_WRT_LINE`, entry and the whole handler are one step (R105; log
entry 10). -/
def takeTurn (t : Turn) (s : State) : StepOutcome :=
  match t with
  | .handler => if s.params.isrAtomic then runHandler s.handlerFuel s else handlerStep s
  | .entry =>
    if s.params.isrAtomic then runHandler s.handlerFuel s.enterInterrupt else .next s.enterInterrupt
  | .mainline => mainlineStep s
  | .line => .next (lineStep s)

/-- The conditions of a final state (R153), of which quiescence is the other half. -/
def State.atEnd (s : State) : Bool :=
  s.fault.isNone && decide (s.pc = s.prog.length) && decide (s.mstate = .idle)
    && decide (s.ctx = .mainline) && !s.irq && s.txq.isEmpty

/-- One step of the instance: a state with `fault` set has none (R130); else one enabled agent's step; else the
state is quiescent: final, where nothing changes any more, or stuck (R153; log entry 7). -/
def agentStep (s : State) : StepOutcome :=
  match s.fault with
  | some r => .fault (.halted r)
  | none =>
    match s.chosenTurn with
    | some t => takeTurn t s.spend
    | none => if s.atEnd then .next s else .fault .stuck

/-- A parameter set that breaks R5, R6 or R8 is refused before any step (R131). -/
def configured (s : State) (body : StepOutcome) : StepOutcome :=
  match s.params.check with
  | some p => .refused (.refusedConfig p)
  | none => body

/-- The command stream with a word at an index, which need not be inside it yet. -/
def placeWord (prog : List Word) (i : Nat) (w : Word) : List Word :=
  prog.take i ++ List.replicate (i - prog.length) 0#16 ++ w :: prog.drop (i + 1)

/-- The state in which `MAINLINE` fetches the word next: the word at `pc`, the mainline in control with no
command in progress and no fault, and its turn first in the schedule (log entry 3). -/
def State.placeNext (s : State) (w : Word) : State :=
  { s with prog := placeWord s.prog s.pc w, ctx := .mainline, mstate := .idle, fault := none,
           sched := .mainline :: s.sched }

/-! ### The host (60_exceptions.md R152) -/

/-- Launch (R152, R161, R164): the reset state with the host's parameters and command stream, and a schedule. -/
def State.launch (p : Params) (prog : List Word) (sched : List Turn) : State :=
  { State.reset with params := p, prog := prog, sched := sched }

/-- Build and launch: a model instance, or `REFUSED_CONFIG(parameter)` (R131, R152). -/
def build (p : Params) (prog : List Word) (sched : List Turn) : StepOutcome :=
  configured (State.launch p prog sched) (.next (State.launch p prog sched))

/-- The host reads `rsp`; while it is unwritten the host model faults (R34, R152). -/
def readRsp (s : State) : Host.Outcome Word Fault Refusal :=
  match s.rsp with
  | some v => .next v
  | none => .fault .rspUnwritten

end Sys2Proof.Machine
end

