-- ==== Sys2Proof/Machine/Step.lean ====
section
/-! DEFINITION. One step of the machine, and the state in which it runs a given word next. -/

namespace Sys2Proof.Machine

/-- One step: refused parameters (R131), else one agent's step (`agentStep`). -/
def step (s : State) : Host.Outcome State Fault Refusal := configured s (agentStep s)

/-- `s` with the command word whose bits are `w` (its low `nbits`, zeros above) where the next step runs it. -/
def State.withFetchWord (s : State) (nbits w : Nat) : State :=
  s.placeNext (BitVec.ofNat 16 (w % 2 ^ nbits))

end Sys2Proof.Machine
end

