-- ==== Sys2Proof/Machine/Assembler.lean ====
section
/-! DEFINITION. The assembler's lines (30_encoding.md R74) and the pseudo-instructions as they are written
(R76, R77), on lists of characters (log entry 21). -/

namespace Sys2Proof.Machine

/-- A blank between the parts of a line. -/
def isBlank (c : Char) : Bool := c == ' ' || c == '\t'

/-- Only blanks, or a comment, which `;` starts (R74). -/
def lineEnds (cs : List Char) : Bool :=
  match cs.dropWhile isBlank with
  | [] => true
  | c :: _ => c == ';'

/-- The value of a digit in a base up to 16. -/
def digitValue (base : Nat) (c : Char) : Option Nat :=
  let v :=
    if '0' ≤ c ∧ c ≤ '9' then c.toNat - 48
    else if 'a' ≤ c ∧ c ≤ 'f' then c.toNat - 87
    else if 'A' ≤ c ∧ c ≤ 'F' then c.toNat - 55
    else base
  if v < base then some v else none

/-- The digits at the front of a line, read onto a value; the rest of the line. -/
def readDigits (base : Nat) : Nat → List Char → Nat × List Char
  | v, [] => (v, [])
  | v, c :: cs =>
    match digitValue base c with
    | some d => readDigits base (v * base + d) cs
    | none => (v, c :: cs)

/-- A number, of at least one digit. -/
def readNumber (base : Nat) (cs : List Char) : Option (Nat × List Char) :=
  match cs with
  | [] => none
  | c :: _ => if (digitValue base c).isSome then some (readDigits base 0 cs) else none

/-- A number `0..255` as a byte (R74). -/
def asByte (r : Option (Nat × List Char)) : Option (Byte × List Char) :=
  match r with
  | some (v, rest) => if v < 256 then some (BitVec.ofNat 8 v, rest) else none
  | none => none

/-- A character's ASCII code (R74, G1), where it has one. -/
def asciiByte (c : Char) : Option Byte :=
  if c.toNat < 128 then some (BitVec.ofNat 8 c.toNat) else none

/-- `<byte>`: `'c'`, a `0x` hexadecimal number, or a decimal number, `0..255` (R74). -/
def readByte (cs : List Char) : Option (Byte × List Char) :=
  match cs with
  | '\'' :: c :: '\'' :: rest => (asciiByte c).map (·, rest)
  | '0' :: 'x' :: rest => asByte (readNumber 16 rest)
  | _ => asByte (readNumber 10 cs)

/-- The bytes of `"s"` after its opening quote, and the rest after its closing quote (R76). -/
def readString : List Char → Option (List Byte × List Char)
  | [] => none
  | '"' :: rest => some ([], rest)
  | c :: cs =>
    match asciiByte c, readString cs with
    | some b, some (bs, rest) => some (b :: bs, rest)
    | _, _ => none

/-- A line without operand. -/
def bare (rest : List Char) (is : List Instr) : Option (List Instr) :=
  if lineEnds rest then some is else none

/-- The operand of a line: after at least one blank. -/
def operandOf (rest : List Char) : Option (List Char) :=
  match rest with
  | [] => none
  | c :: cs => if isBlank c then some (cs.dropWhile isBlank) else none

/-- `ENQB <byte>`. -/
def byteLine (rest : List Char) : Option (List Instr) :=
  match (operandOf rest).bind readByte with
  | some (b, rest') => bare rest' [.enqb b]
  | none => none

/-- `IEN 0` or `IEN 1`. -/
def enableLine (rest : List Char) : Option (List Instr) :=
  match operandOf rest with
  | some ('0' :: rest') => bare rest' [.ien false]
  | some ('1' :: rest') => bare rest' [.ien true]
  | _ => none

/-- `ENQUEUE "s"` and `WRITE "s"`. -/
def stringLine (expand : List Byte → List Instr) (rest : List Char) : Option (List Instr) :=
  match operandOf rest with
  | some ('"' :: rest') =>
    match readString rest' with
    | some (bs, rest'') => bare rest'' (expand bs)
    | none => none
  | _ => none

/-- One line of assembler text (R74, R76, R77): no command (a blank or a comment), one command, or the commands of
a pseudo-instruction; none where it is no line of the syntax. -/
def assembleLine (line : List Char) : Option (List Instr) :=
  let text := line.dropWhile isBlank
  let rest := text.dropWhile Char.isUpper
  match text.takeWhile Char.isUpper with
  | [] => bare rest []
  | ['C', 'F', 'G'] => bare rest [.cfg]
  | ['E', 'N', 'Q', 'B'] => byteLine rest
  | ['E', 'N', 'Q', 'E'] => bare rest [.enqe]
  | ['P', 'R', 'I', 'M', 'E'] => bare rest [.prime]
  | ['D', 'R', 'A', 'I', 'N'] => bare rest [.drain]
  | ['I', 'E', 'N'] => enableLine rest
  | ['E', 'M', 'P', 'T', 'Y'] => bare rest [.empty]
  | ['O', 'C', 'C'] => bare rest [.occ]
  | ['C', 'L', 'R', 'F'] => bare rest [.clrf]
  | ['I', 'R', 'E', 'T'] => bare rest [.iret]
  | ['E', 'N', 'Q', 'U', 'E', 'U', 'E'] => stringLine enqueueCall rest
  | ['W', 'R', 'I', 'T', 'E'] => stringLine writeCall rest
  | _ => none

/-- The command stream of a text, line by line (R74). -/
def assemble : List (List Char) → Option (List Word)
  | [] => some []
  | l :: ls =>
    match assembleLine l, assemble ls with
    | some is, some ws => some (is.map encode ++ ws)
    | _, _ => none

/-- A hexadecimal digit. -/
def hexDigit (v : Nat) : Char :=
  if v < 10 then Char.ofNat (48 + v) else Char.ofNat (87 + v)

/-- A command as a line of the syntax (R74). -/
def asmLine : Instr → List Char
  | .cfg => ['C', 'F', 'G']
  | .enqb b =>
    ['E', 'N', 'Q', 'B', ' ', '0', 'x', hexDigit (b.toNat / 16), hexDigit (b.toNat % 16)]
  | .enqe => ['E', 'N', 'Q', 'E']
  | .prime => ['P', 'R', 'I', 'M', 'E']
  | .drain => ['D', 'R', 'A', 'I', 'N']
  | .ien false => ['I', 'E', 'N', ' ', '0']
  | .ien true => ['I', 'E', 'N', ' ', '1']
  | .empty => ['E', 'M', 'P', 'T', 'Y']
  | .occ => ['O', 'C', 'C']
  | .clrf => ['C', 'L', 'R', 'F']
  | .iret => ['I', 'R', 'E', 'T']

end Sys2Proof.Machine
end

