-- ==== Sys2Proof/Safety.lean ====
section
/-! DEFINITION. The terms claims use: who stands where, quiescent, final and stuck states (R153), launch
(R164), fairness (R125, R142), the FIFO's contents, the invariant of R42, and the bound on runs. -/

namespace Sys2Proof.Machine

/-! ### Where an agent stands -/

/-- `MAINLINE` owns the core, unfaulted, at a micro-state. -/
def State.InMainline (s : State) (m : MState) : Prop :=
  s.fault = none ∧ s.ctx = .mainline ∧ s.mstate = m

/-- `MAINLINE` is about to begin a command, and the block is configured: R80's prologue passes. -/
def State.AtCommand (s : State) : Prop := s.InMainline .idle ∧ s.cfg = true

/-- `HANDLER` owns the core, unfaulted, at a position of its program. -/
def State.InHandler (s : State) (h : HState) : Prop :=
  s.fault = none ∧ s.ctx = .interrupt ∧ s.hstate = h

/-- The command at `pc` (R26). -/
def State.Fetches (s : State) (i : Instr) : Prop :=
  ∃ w, s.fetch = some w ∧ decode w = .ok i

/-! ### Quiescent, final, stuck (R153) -/

/-- No agent has an enabled step. -/
def State.Quiescent (s : State) : Prop := s.enabledTurns = []

/-- A quiescent state that meets R153's conditions. -/
def State.Final (s : State) : Prop := s.Quiescent ∧ s.atEnd = true

/-- A quiescent state that is not final. -/
def State.Stuck (s : State) : Prop := s.Quiescent ∧ s.atEnd = false

/-! ### Launch, runs, fairness -/

/-- The launch predicate (R164): parameters not refused, and the reset state with them, a command stream
and a schedule. -/
def Launch (p : Params) (prog : List Word) (sched : List Turn) (s : State) : Prop :=
  p.check = none ∧ s = State.launch p prog sched

/-- An infinite sequence of states, each the next of the one before. -/
def IsRun (run : Nat → State) : Prop := ∀ k, step (run k) = .next (run (k + 1))

/-- Weak fairness of a turn in a run (R125 for `LINE`, R142 for entry): enabled from some point on, it is
taken. It is a premise a claim may take, not a property of `step` (log entry 20). -/
def WeaklyFair (run : Nat → State) (t : Turn) : Prop :=
  ∀ k, (∀ j, k ≤ j → (run j).enabled t = true) → ∃ j, k ≤ j ∧ (run j).chosenTurn = some t

/-! ### The FIFO -/

/-- The queued bytes, oldest first: slots `(rc + k) mod C` for `k < occ(wc, rc)` (R42). -/
def State.queued (s : State) : List Byte :=
  (List.range s.occ).filterMap fun k =>
    Memory.read s.storage ((s.rc + k) % s.params.capacity)

/-- The byte an event enqueued, if it is an `Enq` (R40). -/
def Event.enqByte : Event → Option Byte
  | .enq b => some b
  | .drop _ | .push _ | .tx _ | .tcSet | .tcClr | .enter | .ret => none

/-- The byte an event pushed, if it is a `Push` (R40). -/
def Event.pushByte : Event → Option Byte
  | .push b => some b
  | .enq _ | .drop _ | .tx _ | .tcSet | .tcClr | .enter | .ret => none

/-- The byte an event transmitted, if it is a `Tx` (R40). -/
def Event.txByte : Event → Option Byte
  | .tx b => some b
  | .enq _ | .drop _ | .push _ | .tcSet | .tcClr | .enter | .ret => none

/-- The bytes of the `Enq` events, in order. -/
def State.enqueuedBytes (s : State) : List Byte := s.hist.filterMap Event.enqByte

/-- The bytes of the `Push` events, in order. -/
def State.pushedBytes (s : State) : List Byte := s.hist.filterMap Event.pushByte

/-- The bytes of the `Tx` events, in order. -/
def State.sentBytes (s : State) : List Byte := s.hist.filterMap Event.txByte

/-- A pass label between S3 and S4: the byte just pushed is in `txq` and still counted in the buffer. -/
def DrainLabel.afterPush : DrainLabel → Bool
  | .s1 | .s2 | .s3 => false
  | .s4 _ => true

/-- A mainline drain pass stands between its S3 and S4. -/
def MState.afterPush : MState → Bool
  | .primeP2 d => d.afterPush
  | .drain d => d.afterPush
  | .idle | .enqbS1 | .enqbS2 _ _ | .enqbS3 _ _ | .enqbS4 _ _ | .primeP1 | .primeP3 => false

/-- The handler's drain pass stands between its S3 and S4. -/
def HState.afterPush : HState → Bool
  | .drain d => d.afterPush
  | .clrf | .iret => false

/-- Some drain pass stands between its steps S3 and S4 (R42 (f)). -/
def State.afterPush (s : State) : Bool := s.mstate.afterPush || s.hstate.afterPush

/-- The queued bytes that no drain pass has pushed yet. -/
def State.unpushed (s : State) : List Byte := if s.afterPush then s.queued.tail else s.queued

/-! ### The invariant (R42, with what the micro-states promise) -/

/-- What a drain pass knows at each label (R101, R107): the peripheral stays ready from S1 to S3, the buffer
stays non-empty from S2 to S4, and at S4 the local `b` is the byte of slot `rc`. -/
def State.PassKnows (s : State) : DrainLabel → Prop
  | .s1 => True
  | .s2 => s.ready = true
  | .s3 => s.ready = true ∧ s.rc ≠ s.wc
  | .s4 b => s.rc ≠ s.wc ∧ Memory.read s.storage s.rc = some b

/-- The common part of `ENQB`'s micro-states after S1: the command at `pc` is `ENQB b`, the local `n` is
`next(wc)`, no byte of the call was refused. -/
def State.EnqbUnderWay (s : State) (b : Byte) (n : Nat) : Prop :=
  s.cfg = true ∧ s.Fetches (.enqb b) ∧ n = s.next s.wc ∧ s.trunc = false

/-- What `mstate` promises (R35, R59): each micro-state is one of the command at `pc`, and its locals mean
what the steps that set them left. -/
def State.MainlineKnows (s : State) : Prop :=
  match s.mstate with
  | .idle => True
  | .enqbS1 => s.cfg = true ∧ ∃ b, s.Fetches (.enqb b)
  | .enqbS2 r n =>
    (∃ b, s.EnqbUnderWay b n) ∧ s.params.enqPolicy = .nonblocking ∧ r < s.params.capacity ∧
      s.occ ≤ occupancy s.params.capacity s.wc r
  | .enqbS3 r n =>
    (∃ b, s.EnqbUnderWay b n) ∧ n ≠ s.rc ∧ (r = none ↔ s.params.enqPolicy = .blocking)
  | .enqbS4 r n =>
    (∃ b, s.EnqbUnderWay b n ∧ Memory.read s.storage s.wc = some b) ∧ n ≠ s.rc ∧
      (r = none ↔ s.params.enqPolicy = .blocking)
  | .primeP1 => s.cfg = true ∧ s.Fetches .prime
  | .primeP2 d => s.cfg = true ∧ s.Fetches .prime ∧ s.ie = false ∧ s.PassKnows d
  | .primeP3 => s.cfg = true ∧ s.Fetches .prime ∧ s.ie = false
  | .drain d => s.cfg = true ∧ s.Fetches .drain ∧ s.ie = false ∧ s.PassKnows d

/-- What `hstate` promises (R36, R100, R103 (b)): outside the interrupt context it stands at its start; inside,
the enable is set, and `tc` is set until `CLRF` has run. -/
def State.HandlerKnows (s : State) : Prop :=
  match s.ctx, s.hstate with
  | .mainline, h => h = .drain .s1
  | .interrupt, .drain d => s.cfg = true ∧ s.ie = true ∧ s.tc = true ∧ s.PassKnows d
  | .interrupt, .clrf => s.cfg = true ∧ s.ie = true ∧ s.tc = true
  | .interrupt, .iret => s.cfg = true ∧ s.ie = true

/-- The invariant of every reachable state: R42 (a) to (d), the canonical storage, and what the status bits,
the micro-states and the fault register keep. R42 (e) is `enabled`'s; R42 (f) is `Fifo`. -/
structure Inv (s : State) : Prop where
  /-- The parameters are not refused (R131). -/
  params_ok : s.params.check = none
  /-- R42 (a). -/
  wc_lt : s.wc < s.params.capacity
  /-- R42 (a). -/
  rc_lt : s.rc < s.params.capacity
  /-- R42 (c). -/
  written : ∀ k, k < s.occ → (Memory.read s.storage ((s.rc + k) % s.params.capacity)).isSome = true
  /-- R42 (d). -/
  txq_le : s.txq.length ≤ s.params.dTx
  /-- The storage is canonical. -/
  storage_wf : Memory.wf s.storage = true
  /-- The storage lists no index outside `0..C-1` (R45). -/
  storage_lt : ∀ c ∈ s.storage, c.1 < s.params.capacity
  /-- `CFG` sets both bits and nothing clears either (R30, R32). -/
  txen_cfg : s.txen = s.cfg
  /-- Before `CFG` the interrupt is disabled and not pending, the buffer, the peripheral and the history are
  empty (R162). -/
  unconfigured : s.cfg = false →
    s.ie = false ∧ s.tc = false ∧ s.wc = 0 ∧ s.rc = 0 ∧ s.txq = [] ∧ s.hist = [] ∧ s.lineOut = []
  /-- Never set under BLOCKING (R28). -/
  trunc_nonblocking : s.trunc = true → s.params.enqPolicy = .nonblocking
  /-- The mainline never runs past the end of the command stream (R27). -/
  pc_le : s.pc ≤ s.prog.length
  mainline : s.MainlineKnows
  handler : s.HandlerKnows
  /-- Codes 6 and 7 are unreachable (R130). -/
  fault_code : ∀ r, s.fault = some r → r.code ≤ 5

/-- The bytes on the line, in the peripheral and in the buffer are the enqueued ones in order: R42 (f), and the
same of the `Push` and `Tx` events. -/
structure Fifo (s : State) : Prop where
  /-- R42 (f), with the byte between S3 and S4 counted once. -/
  enqueued : s.lineOut ++ s.txq ++ s.unpushed = s.enqueuedBytes
  pushed : s.lineOut ++ s.txq = s.pushedBytes
  sent : s.lineOut = s.sentBytes

/-! ### Running one agent alone -/

/-- A mainline command run with no other agent stepping inside it, at most so many steps: until `mstate = Idle`
again, or a fault is raised. -/
def runCommand (i : Instr) : Nat → State → StepOutcome
  | 0, s => .next s
  | k + 1, s =>
    match exec i s with
    | .next s' => if s'.mstate = .idle then .next s' else runCommand i k s'
    | .fault f => .fault f
    | .refused r => .refused r

/-- Mainline commands one after the other with no other agent stepping, each at most four steps: enough for every
command but a drain (R82, R182). -/
def runCommands : List Instr → State → StepOutcome
  | [], s => .next s
  | i :: is, s =>
    match runCommand i 4 s with
    | .next t => runCommands is t
    | .fault f => .fault f
    | .refused r => .refused r

/-! ### The bound on runs (R153: no run from reset is infinite) -/

/-- Steps a drain pass still has before its exit or its next push. -/
def DrainLabel.rank : DrainLabel → Nat
  | .s1 => 2
  | .s2 => 1
  | .s3 => 0
  | .s4 _ => 3

/-- Steps the handler still has, pushes apart. -/
def HState.rank : HState → Nat
  | .drain d => d.rank + 3
  | .clrf => 2
  | .iret => 1

/-- Steps the command under way still has, and what it may still enqueue (11), pushes apart. -/
def MState.rank : MState → Nat
  | .idle => 0
  | .enqbS1 => 15
  | .enqbS2 _ _ => 14
  | .enqbS3 _ _ => 13
  | .enqbS4 _ _ => 12
  | .primeP1 => 5
  | .primeP2 d => d.rank + 2
  | .primeP3 => 1
  | .drain d => d.rank + 1

/-- Commands not begun. -/
def State.commandsLeft (s : State) : Nat :=
  s.prog.length - s.pc - if s.mstate = .idle then 0 else 1

/-- Queued bytes that no pass has pushed. -/
def State.unpushedCount (s : State) : Nat := s.occ - if s.afterPush then 1 else 0

/-- What the interrupt still costs: the handler's own steps, and one whole handler run for a `tc` that no `CLRF`
under way will clear. -/
def State.interruptBound (s : State) : Nat :=
  match s.ctx, s.hstate with
  | .mainline, _ => if s.tc then 6 else 0
  | .interrupt, .drain d => HState.rank (.drain d)
  | .interrupt, .clrf => HState.rank .clrf
  | .interrupt, .iret => HState.rank .iret + if s.tc then 6 else 0

/-- A number that every agent step lowers: a byte in `txq` is worth a `LINE` step and the handler run it may cause
(7), a queued byte four pass steps more (11), a command more than its own steps and one byte (20). -/
def State.bound (s : State) : Nat :=
  20 * s.commandsLeft + s.mstate.rank + s.interruptBound + 11 * s.unpushedCount
    + 7 * s.txq.length + if s.fault = none then 1 else 0

end Sys2Proof.Machine
end

