-- ==== Sys2Proof/Certificates/Slice0/Obligations.lean ====
section
/-! DEFINITION. The statements for the provers. Each is about every state, reachable or not, unless it takes the
invariant `Inv` as a premise; that every step keeps `Inv`, and that launch meets it, are statements of their own. -/

open Sys2Proof Sys2Proof.Machine

/-! ### Encoding (30_encoding.md) -/

/-- R78: encoding then decoding is the identity, on every command with every operand; and a word that decodes is the
encoding of what it decodes to, so no two words decode alike and no bit is dropped. -/
def Obligations.DecodeInvertsEncode : Prop :=
  (∀ i : Instr, decode (encode i) = .ok i) ∧
  ∀ (w : Word) (i : Instr), decode w = .ok i → encode i = w

/-- R67 to R72: the legal words are exactly the table's exact words. -/
def Obligations.LegalWordsAreTheTablesWords : Prop :=
  ∀ w : Word, (∃ i, decode w = .ok i) ↔
    w = 0x1000#16 ∨ (0x2000 ≤ w.toNat ∧ w.toNat ≤ 0x20FF) ∨ w = 0x3000#16 ∨ w = 0x4000#16 ∨
      w = 0x5000#16 ∨ w = 0x6000#16 ∨ w = 0x6001#16 ∨ w = 0x7000#16 ∨ w = 0x8000#16 ∨
      w = 0x9000#16 ∨ w = 0xA000#16

/-- 95_test_vectors.md 2.1: words written out from the encoding, and what they decode to. -/
def Obligations.TableWordsDecodeAsWritten : Prop :=
  decode 0x1000#16 = .ok .cfg ∧ decode 0x2041#16 = .ok (.enqb 0x41#8) ∧
  decode 0x3000#16 = .ok .enqe ∧ decode 0x4000#16 = .ok .prime ∧ decode 0x5000#16 = .ok .drain ∧
  decode 0x6001#16 = .ok (.ien true) ∧ decode 0x7000#16 = .ok .empty ∧
  decode 0x8000#16 = .ok .occ ∧ decode 0x9000#16 = .ok .clrf ∧ decode 0xA000#16 = .ok .iret ∧
  decode 0x0000#16 = .error .noOperation ∧ decode 0xB000#16 = .error .noOperation ∧
  decode 0x2141#16 = .error .reservedZ ∧ decode 0x6081#16 = .error .reservedImm

/-- R74: every command's line, as `asmLine` writes it (log entry 21), assembles to that command. -/
def Obligations.AssemblerReadsItsLines : Prop :=
  ∀ i : Instr, assembleLine (asmLine i) = some [i]

/-! ### Reset, launch, parameters (R131, R152, R160, R164) -/

/-- R160: the state after reset, whatever the parameters, the command stream and the schedule; and `State.reset` is
such a state. -/
def Obligations.ResetStateIsAsR160Says : Prop :=
  (∀ (p : Params) (prog : List Word) (sched : List Turn), let s := State.launch p prog sched
    (∀ i, Memory.read s.storage i = none) ∧ s.wc = 0 ∧ s.rc = 0 ∧ s.pc = 0 ∧ s.trunc = false ∧
    s.ie = false ∧ s.cfg = false ∧ s.tc = false ∧ s.txen = false ∧ s.ctx = .mainline ∧
    s.rsp = none ∧ s.mstate = .idle ∧ s.hstate = .drain .s1 ∧ s.txq = [] ∧ s.lineOut = [] ∧
    s.hist = [] ∧ s.fault = none) ∧
  ∃ p prog sched, State.reset = State.launch p prog sched

/-- R131: a parameter set that breaks R5, R6 or R8 is refused before any step, by the name of a parameter that breaks
its bounds; any other is built. Which one is named where several break theirs is left open (log entry 24). -/
def Obligations.BrokenParametersAreRefused : Prop :=
  ∀ (p : Params) (prog : List Word) (sched : List Turn),
    ((p.capacity < 2 ∨ 65536 < p.capacity ∨ 2 ^ p.cursorWidth < p.capacity ∨ 16 < p.cursorWidth ∨
        p.dTx < 1) →
      ∃ n, build p prog sched = .refused (.refusedConfig n) ∧
        (∀ s : State, s.params = p → step s = .refused (.refusedConfig n)) ∧
        (n = .capacity → p.capacity < 2 ∨ 65536 < p.capacity) ∧
        (n = .cursorWidth → 2 ^ p.cursorWidth < p.capacity ∨ 16 < p.cursorWidth) ∧
        (n = .dTx → p.dTx < 1)) ∧
    ((2 ≤ p.capacity ∧ p.capacity ≤ 65536 ∧ p.capacity ≤ 2 ^ p.cursorWidth ∧ p.cursorWidth ≤ 16 ∧
        1 ≤ p.dTx) →
      build p prog sched = .next (State.launch p prog sched))

/-- R42, R164: every launched state meets the invariant and the FIFO's. -/
def Obligations.LaunchMeetsInvAndFifo : Prop :=
  ∀ (p : Params) (prog : List Word) (sched : List Turn) (s : State),
    Launch p prog sched s → Inv s ∧ Fifo s

/-! ### Headline invariants (R42, R64, R153, R174) -/

/-- R42 (a) to (d), with what the micro-states promise: every step, of any agent and under every schedule, keeps the
invariant. -/
def Obligations.StepKeepsInv : Prop :=
  ∀ s t : State, Inv s → step s = .next t → Inv t

/-- R42 (f), R64, R174: every step keeps the bytes on the line, in the peripheral and in the buffer equal, in order, to
the enqueued ones: nothing is lost, doubled, reordered or torn. -/
def Obligations.StepKeepsFifoOrder : Prop :=
  ∀ s t : State, Inv s → Fifo s → step s = .next t → Fifo t

/-- R153: no run is infinite. Every step that is not the rest of a final state (which answers itself by log entry 7) lowers
`State.bound`, which is `20 |prog| + 1` at launch. -/
def Obligations.EveryStepLowersTheBound : Prop :=
  (∀ s t : State, Inv s → step s = .next t → t.bound < s.bound ∨ (s.Final ∧ t = s)) ∧
  ∀ (p : Params) (prog : List Word) (sched : List Turn),
    (State.launch p prog sched).bound = 20 * prog.length + 1

/-- R153, R168, R107, R130: an unfaulted state that meets the invariant has a next state, or it is stuck, and then it is
the BLOCKING hold with nothing in the peripheral and no interrupt requested. No other stop is reachable. That a final
state answers itself and a stuck one the fault `stuck` is the model's choice (log entry 7). -/
def Obligations.OnlyTheBlockingHoldSticks : Prop :=
  ∀ s : State, Inv s → s.fault = none →
    (∃ t, step s = .next t) ∨
      (step s = .fault .stuck ∧ s.Stuck ∧ s.ctx = .mainline ∧ s.params.enqPolicy = .blocking ∧
        s.atEnqb = true ∧ s.next s.wc = s.rc ∧ s.irq = false ∧ s.txq = [])

/-- R153, R64: in a final state the bytes enqueued are the bytes on the line followed by those still queued. -/
def Obligations.FinalStateAccountsForEveryByte : Prop :=
  ∀ s : State, Inv s → Fifo s → s.Final → s.lineOut ++ s.queued = s.enqueuedBytes

/-- R40, R38: the history and the line only grow at their ends. -/
def Obligations.HistoryAndLineOnlyGrow : Prop :=
  ∀ s t : State, step s = .next t →
    (∃ events, t.hist = s.hist ++ events) ∧ ∃ bytes, t.lineOut = s.lineOut ++ bytes

/-! ### Who writes what (10_state.md) -/

/-- R27: `pc` stays or advances by exactly 1, and only a step of the mainline advances it. -/
def Obligations.PcStaysOrAdvancesByOne : Prop :=
  ∀ s t : State, step s = .next t →
    t.pc = s.pc ∨ (t.pc = s.pc + 1 ∧ s.chosenTurn = some .mainline)

/-- R7, R30, R32, R43: no step writes the parameters or the command stream; `cfg` and `txen` are never cleared and only
`CFG` sets them. -/
def Obligations.ConfigurationIsNeverUndone : Prop :=
  ∀ s t : State, step s = .next t →
    t.params = s.params ∧ t.prog = s.prog ∧ (s.cfg = true → t.cfg = true) ∧
    (s.txen = true → t.txen = true) ∧
    (t.cfg ≠ s.cfg ∨ t.txen ≠ s.txen → s.chosenTurn = some .mainline ∧ s.Fetches .cfg)

/-- R21, R22, R24, R46: only the mainline's `ENQB` writes the storage, at S3 in slot `wc` alone, and only its S4 writes
`wc`, with the local `n`. -/
def Obligations.OnlyEnqbWritesStorageAndWc : Prop :=
  ∀ s t : State, step s = .next t →
    ((∃ j, Memory.read t.storage j ≠ Memory.read s.storage j) →
      s.chosenTurn = some .mainline ∧ (∃ b r n, s.Fetches (.enqb b) ∧ s.mstate = .enqbS3 r n ∧
        Memory.read t.storage s.wc = some b) ∧
      ∀ j, j ≠ s.wc → Memory.read t.storage j = Memory.read s.storage j) ∧
    (t.wc ≠ s.wc →
      s.chosenTurn = some .mainline ∧ ∃ b r n, s.Fetches (.enqb b) ∧ s.mstate = .enqbS4 r n ∧
        t.wc = n)

/-- R23, R24: `rc` is written only by the holder of the consumer role: by the interrupt context, or by the mainline at
S4 of a drain pass, with `next(rc)`. -/
def Obligations.OnlyTheConsumerMovesRc : Prop :=
  ∀ s t : State, step s = .next t → t.rc ≠ s.rc →
    s.chosenTurn = some .handler ∨
    (s.chosenTurn = some .entry ∧ s.params.isrAtomic = true) ∨
    (s.chosenTurn = some .mainline ∧ t.rc = s.next s.rc ∧
      ∃ b, s.mstate = .primeP2 (.s4 b) ∨ s.mstate = .drain (.s4 b))

/-- R28: `trunc` is set only by S2 of a NONBLOCKING `ENQB` that finds the buffer full, and cleared only by `ENQE`. -/
def Obligations.OnlyAFullEnqbSetsTrunc : Prop :=
  ∀ s t : State, step s = .next t →
    (s.trunc = false → t.trunc = true →
      s.params.enqPolicy = .nonblocking ∧ ∃ r, s.mstate = .enqbS2 r r) ∧
    (s.trunc = true → t.trunc = false → s.chosenTurn = some .mainline ∧ s.Fetches .enqe)

/-- R29, R122: `ie` is written only by the mainline's `CFG`, `PRIME` and `IEN`. -/
def Obligations.OnlyCfgPrimeIenWriteIe : Prop :=
  ∀ s t : State, step s = .next t → t.ie ≠ s.ie →
    s.chosenTurn = some .mainline ∧
      (s.Fetches .cfg ∨ s.Fetches .prime ∨ ∃ e, s.Fetches (.ien e) ∧ t.ie = e)

/-- R31, R123, R145: `tc` is set only by `LINE` and cleared only in the interrupt context; a masked pending `tc` stays
set. -/
def Obligations.TcIsSetByLineAndClearedByHandler : Prop :=
  ∀ s t : State, step s = .next t →
    (s.tc = false → t.tc = true → s.chosenTurn = some .line) ∧
    (s.tc = true → t.tc = false →
      s.chosenTurn = some .handler ∨ (s.chosenTurn = some .entry ∧ s.params.isrAtomic = true)) ∧
    (s.tc = true → s.ie = false → s.ctx = .mainline → t.tc = true)

/-- R34: `rsp` is written only by the mainline's `EMPTY` and `OCC`. -/
def Obligations.OnlyQueriesWriteRsp : Prop :=
  ∀ s t : State, step s = .next t → t.rsp ≠ s.rsp →
    s.chosenTurn = some .mainline ∧ (s.Fetches .empty ∨ s.Fetches .occ)

/-- R141, R144, R147: whatever happens that is not a mainline step, the mainline finds its position and everything it
owns as it left them. -/
def Obligations.OtherTurnsLeaveTheMainlineInPlace : Prop :=
  ∀ s t : State, step s = .next t → s.chosenTurn ≠ some .mainline →
    t.pc = s.pc ∧ t.mstate = s.mstate ∧ t.wc = s.wc ∧ t.storage = s.storage ∧ t.trunc = s.trunc ∧
      t.ie = s.ie ∧ t.cfg = s.cfg ∧ t.txen = s.txen ∧ t.rsp = s.rsp

/-! ### A step of the machine (R14, R56, R80, R140, R141, R146) -/

/-- R80, R100, R132, R141: the step of the turn taken, on the state with the schedule's head used up: the mainline runs the
command its word decodes to, or raises `F_ILLEGAL`; the handler runs the command of its position; entry and `LINE` make
their steps. -/
def Obligations.StepRunsTheDecodedCommand : Prop :=
  ∀ s : State, s.params.check = none → s.fault = none →
    (∀ w i, s.chosenTurn = some .mainline → s.fetch = some w → decode w = .ok i →
      step s = exec i s.spend) ∧
    (∀ w e, s.chosenTurn = some .mainline → s.fetch = some w → decode w = .error e →
      s.mstate = .idle → step s = .next { s.spend with fault := some (.illegal s.pc w) }) ∧
    (s.chosenTurn = some .handler → s.params.isrAtomic = false →
      step s = exec s.hstate.command s.spend) ∧
    (s.chosenTurn = some .entry → s.params.isrAtomic = false →
      step s = .next { s.spend with ctx := .interrupt, hstate := .drain .s1,
                                    hist := s.hist ++ [.enter] }) ∧
    (s.chosenTurn = some .line → step s = .next (lineStep s.spend))

/-- R56, R142, R146: whichever enabled turn the schedule names is taken, so every interleaving of enabled steps is a run
of the model; and a turn that is taken is enabled. -/
def Obligations.EveryEnabledTurnCanBeTaken : Prop :=
  (∀ (s : State) (turn : Turn) (rest : List Turn), s.params.check = none →
    s.enabled turn = true →
    step { s with sched := turn :: rest } = takeTurn turn { s with sched := rest, tick := s.tick + 1 }) ∧
  ∀ (s : State) (turn : Turn), s.chosenTurn = some turn → s.enabled turn = true

/-- The state that `withFetchWord` builds runs its word in the very next step, where the mainline does not hold there
(log entry 3). -/
def Obligations.PlacedWordRunsNext : Prop :=
  ∀ (s : State) (w : Word), s.params.check = none → (s.placeNext w).holds = false →
    (s.placeNext w).fetch = some w ∧ s.withFetchWord 16 w.toNat = s.placeNext w ∧
      step (s.withFetchWord 16 w.toNat) = runWord w (s.placeNext w).spend

/-- R33, R39, R140, R143: entry is enabled exactly when unfaulted, in the mainline context, configured, enabled and pending;
mainline and handler are never both enabled, nor is the handler entered again. -/
def Obligations.EntryIsEnabledExactlyOnRequest : Prop :=
  ∀ s : State,
    (s.enabled .entry = true ↔
      s.fault = none ∧ s.ctx = .mainline ∧ s.cfg = true ∧ s.ie = true ∧ s.tc = true) ∧
    (s.enabled .handler = true → s.enabled .entry = false ∧ s.enabled .mainline = false) ∧
    (s.fault ≠ none → ∀ turn, s.enabled turn = false)

/-! ### Model faults (60_exceptions.md section 2) -/

/-- R133, R134, R135, R136 (and their order, R146): what each prologue check and the own check of `CFG` and `DRAIN` raise at the
start of a command, the illegal word first (R132); nothing else changes (R130). -/
def Obligations.FaultsAreRaisedInOrder : Prop :=
  ∀ s : State, s.InMainline .idle →
    (∀ w e, decode w = .error e → runWord w s = .next { s with fault := some (.illegal s.pc w) }) ∧
    (∀ w i, decode w = .ok i → runWord w s = exec i s) ∧
    exec .clrf s = .next { s with fault := some (.context s.pc 0x9000#16) } ∧
    exec .iret s = .next { s with fault := some (.context s.pc 0xA000#16) } ∧
    (∀ i, s.cfg = false → i ≠ .cfg → i ≠ .clrf → i ≠ .iret →
      exec i s = .next { s with fault := some (.notConfigured s.pc (encode i)) }) ∧
    (s.cfg = true → exec .cfg s = .next { s with fault := some (.reconfigure s.pc) }) ∧
    (s.cfg = true → s.ie = true → exec .drain s = .next { s with fault := some (.drainRace s.pc) })

/-- R73, R148 (the interrupt context's half is the model's reading, log entry 13): a command none of whose issuers is the
interrupt context raises `F_CONTEXT` there. -/
def Obligations.HandlerMayIssueOnlyItsCommands : Prop :=
  ∀ (s : State) (i : Instr), s.fault = none → s.ctx = .interrupt →
    i ≠ .drain → i ≠ .clrf → i ≠ .iret →
    exec i s = .next { s with fault := some (.context s.pc (encode i)) }

/-- R137, R138: the two faults of a drain pass at its S3, in the handler, in `PRIME` and in a mainline `DRAIN`; nothing
else changes. -/
def Obligations.DrainPassFaults : Prop :=
  ∀ (s : State) (i : Instr), s.rc < s.params.capacity →
    (i = .drain ∧ s.InHandler (.drain .s3)) ∨ (i = .prime ∧ s.InMainline (.primeP2 .s3)) ∨
      (i = .drain ∧ s.InMainline (.drain .s3)) →
    (Memory.read s.storage s.rc = none →
      exec i s = .next { s with fault := some (.unwrittenSlot s.rc) }) ∧
    (∀ b, Memory.read s.storage s.rc = some b → s.ready = false →
      push s b = .error (.pushNotReady b) ∧
        exec i s = .next { s with fault := some (.pushNotReady b) })

/-- R39, R130: a fault stops every agent for good, and `raise` changes nothing but an empty `fault`. -/
def Obligations.AFaultStopsEveryAgent : Prop :=
  ∀ (s : State) (r : FaultRecord), s.params.check = none → s.fault = some r →
    step s = .fault (.halted r) ∧ (∀ i, exec i s = .fault (.halted r)) ∧ ∀ q, s.raise q = s

/-! ### Results: the producer's commands (40_producer.md) -/

/-- R81: `CFG` on an unconfigured block. -/
def Obligations.CfgConfigures : Prop :=
  encode .cfg = 0x1000#16 ∧
  ∀ s : State, s.InMainline .idle → s.cfg = false →
    exec .cfg s = .next { s with txen := true, ie := true, cfg := true, pc := s.pc + 1 }

/-- R84, R88: `ENQE` and `IEN`. -/
def Obligations.EnqeAndIenWriteTheirBit : Prop :=
  ∀ s : State, s.AtCommand →
    exec .enqe s = .next { s with trunc := false, pc := s.pc + 1 } ∧
    ∀ e, exec (.ien e) s = .next { s with ie := e, pc := s.pc + 1 }

/-- R89, R90, R51: `EMPTY` answers 1 or 0 as `wc = rc`, and `OCC` the mathematical remainder of `wc - rc` modulo `C`, exactly, in
16 bits. -/
def Obligations.QueriesAnswerExactly : Prop :=
  ∀ s : State, s.AtCommand → s.params.check = none → s.wc < s.params.capacity →
    s.rc < s.params.capacity →
    exec .empty s = .next { s with rsp := some (if s.rc = s.wc then 1#16 else 0#16), pc := s.pc + 1 } ∧
    ∃ v : Word, exec .occ s = .next { s with rsp := some v, pc := s.pc + 1 } ∧
      v.toNat = if s.rc ≤ s.wc then s.wc - s.rc else s.wc + s.params.capacity - s.rc

/-- R52: the buffer is empty iff `occ = 0` and full iff `occ = C - 1`; `wc = rc` is never full. -/
def Obligations.EmptyAndFullByOccupancy : Prop :=
  ∀ s : State, 2 ≤ s.params.capacity → s.wc < s.params.capacity → s.rc < s.params.capacity →
    (s.isEmpty = true ↔ s.wc = s.rc) ∧ (s.isEmpty = true ↔ s.occ = 0) ∧
    (s.isFull = true ↔ nextCursor s.params.capacity s.wc = s.rc) ∧
    (s.isFull = true ↔ s.occ = s.params.capacity - 1) ∧ (s.wc = s.rc → s.isFull = false)

/-- R82: every step of a NONBLOCKING `ENQB`. -/
def Obligations.EnqbNonblockingSteps : Prop :=
  ∀ (s : State) (b : Byte), s.params.enqPolicy = .nonblocking →
    (s.AtCommand ∨ s.InMainline .enqbS1 → s.trunc = true →
      exec (.enqb b) s =
        .next { s with hist := s.hist ++ [.drop b], pc := s.pc + 1, mstate := .idle }) ∧
    (s.AtCommand ∨ s.InMainline .enqbS1 → s.trunc = false →
      exec (.enqb b) s =
        .next { s with mstate := .enqbS2 s.rc (nextCursor s.params.capacity s.wc) }) ∧
    (∀ r n, s.InMainline (.enqbS2 r n) → n = r →
      exec (.enqb b) s =
        .next { s with trunc := true, hist := s.hist ++ [.drop b], pc := s.pc + 1,
                       mstate := .idle }) ∧
    (∀ r n, s.InMainline (.enqbS2 r n) → n ≠ r →
      exec (.enqb b) s = .next { s with mstate := .enqbS3 (some r) n })

/-- R83: S1 of a BLOCKING `ENQB`; while the buffer is full the mainline holds, and nothing changes (log entry 8). -/
def Obligations.EnqbBlockingFirstStep : Prop :=
  ∀ (s : State) (b : Byte), s.params.enqPolicy = .blocking →
    s.AtCommand ∨ s.InMainline .enqbS1 →
    (nextCursor s.params.capacity s.wc ≠ s.rc →
      exec (.enqb b) s =
        .next { s with mstate := .enqbS3 none (nextCursor s.params.capacity s.wc) }) ∧
    (nextCursor s.params.capacity s.wc = s.rc → exec (.enqb b) s = .next s) ∧
    (nextCursor s.params.capacity s.wc = s.rc → s.Fetches (.enqb b) → s.enabled .mainline = false)

/-- R82, R83, R57: under both policies S3 writes slot `wc` and no other, a step before S4 stores `wc`. -/
def Obligations.EnqbWritesThenPublishes : Prop :=
  ∀ (s : State) (b : Byte) (r : Option Nat) (n : Nat),
    (s.InMainline (.enqbS3 r n) → s.wc < s.params.capacity →
      ∃ m, exec (.enqb b) s = .next { s with storage := m, mstate := .enqbS4 r n } ∧
        Memory.read m s.wc = some b ∧ ∀ j, j ≠ s.wc → Memory.read m j = Memory.read s.storage j) ∧
    (s.InMainline (.enqbS4 r n) →
      exec (.enqb b) s =
        .next { s with wc := n, hist := s.hist ++ [.enq b], pc := s.pc + 1, mstate := .idle })

/-- R82, R182: a NONBLOCKING `ENQB` that runs alone ends in at most four steps: the byte is dropped, latching `trunc` when the
buffer is full, or it stands in slot `wc` and `wc` has advanced. -/
def Obligations.EnqbAloneStoresOrDrops : Prop :=
  ∀ (s : State) (b : Byte), s.AtCommand → s.params.enqPolicy = .nonblocking →
    s.wc < s.params.capacity →
    (s.trunc = true ∨ nextCursor s.params.capacity s.wc = s.rc →
      runCommand (.enqb b) 4 s =
        .next { s with trunc := true, hist := s.hist ++ [.drop b], pc := s.pc + 1 }) ∧
    (s.trunc = false → nextCursor s.params.capacity s.wc ≠ s.rc →
      runCommand (.enqb b) 4 s =
        .next { s with storage := Memory.write s.storage s.wc b,
                       wc := nextCursor s.params.capacity s.wc,
                       hist := s.hist ++ [.enq b], pc := s.pc + 1 })

/-- R75, R85, R172: one enqueue call under NONBLOCKING, with no drain during it, stores the longest prefix that fits in
`C - 1 - occ` slots, drops the rest, and leaves `trunc` clear for the next call. -/
def Obligations.EnqueueCallStoresThePrefixThatFits : Prop :=
  ∀ (s : State) (bytes : List Byte), s.AtCommand → s.params.enqPolicy = .nonblocking →
    s.trunc = false → s.wc < s.params.capacity → s.rc < s.params.capacity → 2 ≤ s.params.capacity →
    ∃ t, runCommands (enqueueCall bytes) s = .next t ∧ t.AtCommand ∧ t.trunc = false ∧ t.rc = s.rc ∧
      t.pc = s.pc + bytes.length + 1 ∧
      t.occ = s.occ + min bytes.length (s.params.capacity - 1 - s.occ) ∧
      t.queued = s.queued ++ bytes.take (s.params.capacity - 1 - s.occ) ∧
      t.hist = s.hist ++ (bytes.take (s.params.capacity - 1 - s.occ)).map Event.enq ++
        (bytes.drop (s.params.capacity - 1 - s.occ)).map Event.drop

/-- R59, R167: a stale snapshot is conservative. What S2 finds free is free, and the slot that S3 writes holds no queued
byte. -/
def Obligations.NoUnreadByteIsOverwritten : Prop :=
  ∀ s : State, Inv s →
    (∀ r n, s.mstate = .enqbS2 r n → n ≠ r → n ≠ s.rc) ∧
    (∀ r n, s.mstate = .enqbS3 r n → ∀ k, k < s.occ → (s.rc + k) % s.params.capacity ≠ s.wc) ∧
    ∀ b r n t, s.mstate = .enqbS3 r n → exec (.enqb b) s = .next t → t.queued = s.queued

/-! ### Results: draining (40_producer.md R86, R87; 41_drainer.md) -/

/-- R86: the first and the last step of `PRIME`. -/
def Obligations.PrimeDisablesThenEnables : Prop :=
  ∀ s : State,
    (s.AtCommand ∨ s.InMainline .primeP1 →
      exec .prime s = .next { s with ie := false, mstate := .primeP2 .s1 }) ∧
    (s.InMainline .primeP3 →
      exec .prime s = .next { s with ie := true, pc := s.pc + 1, mstate := .idle })

/-- R101 in `PRIME` (R86 P2): every step of the pass, and its exit to P3. -/
def Obligations.PrimePassSteps : Prop :=
  ∀ s : State,
    (s.InMainline (.primeP2 .s1) → s.ready = true →
      exec .prime s = .next { s with mstate := .primeP2 .s2 }) ∧
    (s.InMainline (.primeP2 .s1) → s.ready = false → exec .prime s = .next { s with mstate := .primeP3 }) ∧
    (s.InMainline (.primeP2 .s2) → s.rc = s.wc → exec .prime s = .next { s with mstate := .primeP3 }) ∧
    (s.InMainline (.primeP2 .s2) → s.rc ≠ s.wc →
      exec .prime s = .next { s with mstate := .primeP2 .s3 }) ∧
    (∀ b, s.InMainline (.primeP2 .s3) → s.rc < s.params.capacity →
      Memory.read s.storage s.rc = some b → s.ready = true →
      exec .prime s =
        .next { s with txq := s.txq ++ [b], hist := s.hist ++ [.push b], mstate := .primeP2 (.s4 b) }) ∧
    (∀ b, s.InMainline (.primeP2 (.s4 b)) →
      exec .prime s =
        .next { s with rc := nextCursor s.params.capacity s.rc, mstate := .primeP2 .s1 })

/-- R87, R101: every step of a mainline `DRAIN` with the interrupt disabled; the first makes the pass's S1 too (log
entry 9), and an exit completes the command. -/
def Obligations.MainlineDrainSteps : Prop :=
  ∀ s : State,
    (s.AtCommand ∧ s.ie = false ∨ s.InMainline (.drain .s1) → s.ready = true →
      exec .drain s = .next { s with mstate := .drain .s2 }) ∧
    (s.AtCommand ∧ s.ie = false ∨ s.InMainline (.drain .s1) → s.ready = false →
      exec .drain s = .next { s with pc := s.pc + 1, mstate := .idle }) ∧
    (s.InMainline (.drain .s2) → s.rc = s.wc →
      exec .drain s = .next { s with pc := s.pc + 1, mstate := .idle }) ∧
    (s.InMainline (.drain .s2) → s.rc ≠ s.wc → exec .drain s = .next { s with mstate := .drain .s3 }) ∧
    (∀ b, s.InMainline (.drain .s3) → s.rc < s.params.capacity →
      Memory.read s.storage s.rc = some b → s.ready = true →
      exec .drain s =
        .next { s with txq := s.txq ++ [b], hist := s.hist ++ [.push b], mstate := .drain (.s4 b) }) ∧
    (∀ b, s.InMainline (.drain (.s4 b)) →
      exec .drain s =
        .next { s with rc := nextCursor s.params.capacity s.rc, mstate := .drain .s1 })

/-- R100, R101: every step of the handler's `DRAIN`; an exit starts `CLRF`. -/
def Obligations.HandlerDrainSteps : Prop :=
  ∀ s : State,
    (s.InHandler (.drain .s1) → s.ready = true →
      exec .drain s = .next { s with hstate := .drain .s2 }) ∧
    (s.InHandler (.drain .s1) → s.ready = false → exec .drain s = .next { s with hstate := .clrf }) ∧
    (s.InHandler (.drain .s2) → s.rc = s.wc → exec .drain s = .next { s with hstate := .clrf }) ∧
    (s.InHandler (.drain .s2) → s.rc ≠ s.wc →
      exec .drain s = .next { s with hstate := .drain .s3 }) ∧
    (∀ b, s.InHandler (.drain .s3) → s.rc < s.params.capacity →
      Memory.read s.storage s.rc = some b → s.ready = true →
      exec .drain s =
        .next { s with txq := s.txq ++ [b], hist := s.hist ++ [.push b], hstate := .drain (.s4 b) }) ∧
    (∀ b, s.InHandler (.drain (.s4 b)) →
      exec .drain s =
        .next { s with rc := nextCursor s.params.capacity s.rc, hstate := .drain .s1 })

/-- R103, R104: `CLRF` and `IRET` in the handler; after `IRET` the interrupt is enterable at once if it is requested again. -/
def Obligations.ClrfClearsAndIretReturns : Prop :=
  ∀ s : State,
    (s.InHandler .clrf →
      exec .clrf s = .next { s with tc := false, hist := s.hist ++ [.tcClr], hstate := .iret }) ∧
    (s.InHandler .iret →
      ∃ t, exec .iret s = .next t ∧
        t = { s with ctx := .mainline, hist := s.hist ++ [.ret], hstate := .drain .s1 } ∧
        t.enabled .entry = s.irq)

/-- R86, R101, R102, R182: a `PRIME` that runs alone ends in at most `4 occ + 4` steps, has pushed the oldest queued bytes as
far as the peripheral had room, in order, and leaves the interrupt enabled. -/
def Obligations.PrimeAloneDrainsGreedily : Prop :=
  ∀ s : State, Inv s → s.AtCommand → s.Fetches .prime →
    ∃ t, runCommand .prime (4 * s.occ + 4) s = .next t ∧ t.mstate = .idle ∧ t.pc = s.pc + 1 ∧
      t.ie = true ∧ t.txq = s.txq ++ s.queued.take (s.params.dTx - s.txq.length) ∧
      t.occ = s.occ - (s.params.dTx - s.txq.length) ∧
      t.queued = s.queued.drop (s.params.dTx - s.txq.length) ∧ t.fault = none

/-- R87, R101, R102, R182: the same of a mainline `DRAIN` with the interrupt disabled, which stays disabled. -/
def Obligations.DrainAloneDrainsGreedily : Prop :=
  ∀ s : State, Inv s → s.AtCommand → s.Fetches .drain → s.ie = false →
    ∃ t, runCommand .drain (4 * s.occ + 4) s = .next t ∧ t.mstate = .idle ∧ t.pc = s.pc + 1 ∧
      t.ie = false ∧ t.txq = s.txq ++ s.queued.take (s.params.dTx - s.txq.length) ∧
      t.occ = s.occ - (s.params.dTx - s.txq.length) ∧
      t.queued = s.queued.drop (s.params.dTx - s.txq.length) ∧ t.fault = none

/-- R102, R108, R181: the handler never fails and never blocks: alone, from its start, it has handed the core back after at most
`4 occ + 4` steps, with `tc` cleared, the oldest queued bytes pushed, and the mainline where it was. -/
def Obligations.HandlerAloneReturns : Prop :=
  ∀ s : State, Inv s → s.InHandler (.drain .s1) →
    ∃ t, runHandler (4 * s.occ + 4) s = .next t ∧ t.ctx = .mainline ∧ t.fault = none ∧
      t.tc = false ∧ t.pc = s.pc ∧ t.mstate = s.mstate ∧ t.ie = s.ie ∧
      t.txq = s.txq ++ s.queued.take (s.params.dTx - s.txq.length) ∧
      t.occ = s.occ - (s.params.dTx - s.txq.length)

/-- R105: with `ISR_ATOMIC_WRT_LINE`, one step takes the interrupt and runs the handler through `IRET`, to the state its
separate steps reach with no `LINE` step between them; `LINE` has no step inside the interrupt context. -/
def Obligations.AtomicHandlerIsItsSeparateSteps : Prop :=
  (∀ s : State, Inv s → s.fault = none → s.params.isrAtomic = true → s.chosenTurn = some .entry →
    ∃ t, step s = .next t ∧ t.ctx = .mainline ∧ t.fault = none ∧
      runHandler (4 * s.occ + 4) s.spend.enterInterrupt = .next t) ∧
  ∀ s : State, s.params.isrAtomic = true → s.ctx = .interrupt → s.enabled .line = false

/-! ### The peripheral (42_peripheral.md) -/

/-- R116, R117, R121: `ready()` and `push(b)`. -/
def Obligations.ReadyAndPush : Prop :=
  ∀ (s : State) (b : Byte),
    (s.ready = true ↔ s.txen = true ∧ s.txq.length < s.params.dTx) ∧
    (s.ready = true → push s b = .ok { s with txq := s.txq ++ [b] }) ∧
    (s.ready = false → push s b = .error (.pushNotReady b)) ∧
    (s.txen = false → s.ready = false ∧ s.enabled .line = false)

/-- R118, R119, R120: a `LINE` step of the machine: the oldest byte leaves the peripheral for the line; under PER_BYTE `tc` is
set always, under ON_IDLE only when nothing is left. -/
def Obligations.LineSendsTheOldestByte : Prop :=
  ∀ (s : State) (b : Byte) (rest : List Byte), s.params.check = none →
    s.chosenTurn = some .line → s.txq = b :: rest →
    (s.params.tcPolicy = .perByte ∨ s.params.tcPolicy = .onIdle ∧ rest = [] →
      step s = .next { s.spend with txq := rest, lineOut := s.lineOut ++ [b], tc := true,
                                    hist := s.hist ++ [.tx b, .tcSet] }) ∧
    (s.params.tcPolicy = .onIdle → rest ≠ [] →
      step s = .next { s.spend with txq := rest, lineOut := s.lineOut ++ [b],
                                    hist := s.hist ++ [.tx b] })

/-! ### Frames -/

/-- R80 to R104, the commands of one step: what none of them writes, and what each alone may write. -/
def Obligations.OneStepCommandsFrame : Prop :=
  ∀ (i : Instr) (s t : State),
    i = .cfg ∨ i = .enqe ∨ (∃ e, i = .ien e) ∨ i = .empty ∨ i = .occ ∨ i = .clrf ∨ i = .iret →
    exec i s = .next t →
    (∀ j, Memory.read t.storage j = Memory.read s.storage j) ∧ t.wc = s.wc ∧ t.rc = s.rc ∧
    t.mstate = s.mstate ∧ t.txq = s.txq ∧ t.lineOut = s.lineOut ∧ t.params = s.params ∧
    t.prog = s.prog ∧ t.sched = s.sched ∧ t.tick = s.tick ∧
    (i ≠ .enqe → t.trunc = s.trunc) ∧ (i ≠ .cfg → t.cfg = s.cfg ∧ t.txen = s.txen) ∧
    (i ≠ .cfg → (∀ e, i ≠ .ien e) → t.ie = s.ie) ∧ (i ≠ .clrf → t.tc = s.tc) ∧
    (i ≠ .empty → i ≠ .occ → t.rsp = s.rsp) ∧ (i ≠ .iret → t.ctx = s.ctx) ∧
    (i ≠ .clrf → i ≠ .iret → t.hstate = s.hstate ∧ t.hist = s.hist) ∧
    (t.fault = s.fault ∨ ∃ r, t = { s with fault := some r })

/-- R86, R87, R101, the drain commands: what they leave unchanged. -/
def Obligations.DrainCommandsFrame : Prop :=
  ∀ (i : Instr) (s t : State), i = .prime ∨ i = .drain → exec i s = .next t →
    (∀ j, Memory.read t.storage j = Memory.read s.storage j) ∧ t.wc = s.wc ∧ t.trunc = s.trunc ∧
    t.cfg = s.cfg ∧ t.tc = s.tc ∧ t.txen = s.txen ∧ t.ctx = s.ctx ∧ t.rsp = s.rsp ∧
    t.lineOut = s.lineOut ∧ t.params = s.params ∧ t.prog = s.prog ∧ t.sched = s.sched ∧
    t.tick = s.tick ∧ (i = .drain → t.ie = s.ie) ∧ (i = .prime → t.hstate = s.hstate) ∧
    (s.ctx = .interrupt → t.mstate = s.mstate ∧ t.pc = s.pc) ∧
    (s.ctx = .mainline → t.hstate = s.hstate) ∧
    (t.rc = s.rc ∨ t.rc = s.next s.rc ∧
      ∃ b, s.mstate = .primeP2 (.s4 b) ∨ s.mstate = .drain (.s4 b) ∨ s.hstate = .drain (.s4 b)) ∧
    (t.txq = s.txq ∧ t.hist = s.hist ∨
      ∃ b, Memory.read s.storage s.rc = some b ∧ t.txq = s.txq ++ [b] ∧ t.hist = s.hist ++ [.push b]) ∧
    (t.fault = s.fault ∨ ∃ r, t = { s with fault := some r })

/-- R82, R83, `ENQB`: what it leaves unchanged. Only S3 stores, at the address `wc`, one byte. -/
def Obligations.EnqbFrame : Prop :=
  ∀ (b : Byte) (s t : State), exec (.enqb b) s = .next t →
    ((∃ r n, s.mstate = .enqbS3 r n) →
      ∀ j, j ≠ s.wc → Memory.read t.storage j = Memory.read s.storage j) ∧
    ((∀ r n, s.mstate ≠ .enqbS3 r n) →
      ∀ j, Memory.read t.storage j = Memory.read s.storage j) ∧
    ((∀ r n, s.mstate ≠ .enqbS4 r n) → t.wc = s.wc) ∧
    ((∀ r n, s.mstate ≠ .enqbS2 r n) → t.trunc = s.trunc) ∧
    t.rc = s.rc ∧ t.ie = s.ie ∧ t.cfg = s.cfg ∧ t.tc = s.tc ∧ t.txen = s.txen ∧ t.ctx = s.ctx ∧
    t.rsp = s.rsp ∧ t.hstate = s.hstate ∧ t.txq = s.txq ∧ t.lineOut = s.lineOut ∧
    t.params = s.params ∧ t.prog = s.prog ∧ t.sched = s.sched ∧ t.tick = s.tick ∧
    (t.hist = s.hist ∨ t.hist = s.hist ++ [.enq b] ∨ t.hist = s.hist ++ [.drop b]) ∧
    (t.fault = s.fault ∨ ∃ r, t = { s with fault := some r })
end

