-- ==== Sys2Proof/Laws/Cursor.lean ====
section
/-! SUPPORT. Cursor arithmetic on cursors in range (20_memory.md R50, R51). -/

namespace Sys2Proof.Machine

variable {c w r : Nat}

theorem nextCursor_of_lt (h : w + 1 < c) : nextCursor c w = w + 1 := Nat.mod_eq_of_lt h

theorem nextCursor_last (h : w + 1 = c) : nextCursor c w = 0 := by
  unfold nextCursor; rw [h, Nat.mod_self]

/-- `next` as cases: a step up, or the wrap at `C`. -/
theorem nextCursor_eq (h : w < c) : nextCursor c w = if w + 1 < c then w + 1 else 0 := by
  split
  case isTrue h' => exact nextCursor_of_lt h'
  case isFalse h' => exact nextCursor_last (by omega)

theorem nextCursor_lt (h : w < c) : nextCursor c w < c := Nat.mod_lt _ (by omega)

/-- `occ` when the write cursor has not wrapped past the read cursor. -/
theorem occupancy_of_le (hw : w < c) (h : r ≤ w) : occupancy c w r = w - r := by
  unfold occupancy
  rw [Int.emod_eq_of_lt (by omega) (by omega)]
  omega

/-- `occ` when the write cursor has wrapped. -/
theorem occupancy_of_lt (hr : r < c) (h : w < r) : occupancy c w r = w + c - r := by
  unfold occupancy
  rw [← Int.add_emod_right, Int.emod_eq_of_lt (by omega) (by omega)]
  omega

/-- `occ` as cases, on cursors in range. -/
theorem occupancy_eq (hw : w < c) (hr : r < c) :
    occupancy c w r = if r ≤ w then w - r else w + c - r := by
  split
  case isTrue h => exact occupancy_of_le hw h
  case isFalse h => exact occupancy_of_lt hr (by omega)

theorem occupancy_lt (hw : w < c) (hr : r < c) : occupancy c w r < c := by
  rw [occupancy_eq hw hr]; split <;> omega

/-- Advancing the write cursor of a buffer that is not full adds one byte. -/
theorem occupancy_next_left (hw : w < c) (hr : r < c) (h : nextCursor c w ≠ r) :
    occupancy c (nextCursor c w) r = occupancy c w r + 1 := by
  rw [occupancy_eq (nextCursor_lt hw) hr, occupancy_eq hw hr]
  by_cases hc : w + 1 < c
  · rw [nextCursor_of_lt hc] at h ⊢; split_ifs <;> omega
  · rw [nextCursor_last (by omega)] at h ⊢; split_ifs <;> omega

/-- Advancing the read cursor of a buffer that is not empty removes one byte. -/
theorem occupancy_next_right (hw : w < c) (hr : r < c) (h : r ≠ w) :
    occupancy c w (nextCursor c r) + 1 = occupancy c w r := by
  rw [occupancy_eq hw (nextCursor_lt hr), occupancy_eq hw hr]
  by_cases hc : r + 1 < c
  · rw [nextCursor_of_lt hc]; split_ifs <;> omega
  · rw [nextCursor_last (by omega)]; split_ifs <;> omega

/-- Where the (k)-th queued byte stands (R42 (c)). -/
theorem slot_succ (k : Nat) : (nextCursor c r + k) % c = (r + (k + 1)) % c := by
  unfold nextCursor
  rw [Nat.mod_add_mod]
  congr 1
  omega

/-- No queued byte stands in the slot the producer writes next, even one step before `wc` is stored. -/
theorem slot_ne_write (hw : w < c) (hr : r < c) {k : Nat} (hk : k < occupancy c w r) :
    (r + k) % c ≠ w := by
  rw [occupancy_eq hw hr] at hk
  split at hk
  · rw [Nat.mod_eq_of_lt (by omega)]; omega
  · by_cases h : r + k < c
    · rw [Nat.mod_eq_of_lt h]; omega
    · rw [Nat.mod_eq_sub_mod (by omega), Nat.mod_eq_of_lt (by omega)]; omega

/-- The slot after the queued bytes is the producer's. -/
theorem slot_occupancy (hw : w < c) (hr : r < c) : (r + occupancy c w r) % c = w := by
  rw [occupancy_eq hw hr]
  split
  · rw [show r + (w - r) = w by omega, Nat.mod_eq_of_lt hw]
  · rw [show r + (w + c - r) = w + c by omega, Nat.add_mod_right, Nat.mod_eq_of_lt hw]

end Sys2Proof.Machine
end

