-- ==== Sys2Proof/Laws/Memory.lean ====
section
/-! SUPPORT. The storage: a read after a write, and the canonical form, which every write keeps. -/

namespace Sys2Proof.Machine

@[simp] theorem Memory.read_nil (i : Nat) : Memory.read [] i = none := rfl

/-- A slot reads the byte last written to it, and every other slot as before. -/
theorem Memory.read_write (m : Memory) (i j : Nat) (b : Byte) :
    Memory.read (Memory.write m i b) j = if i = j then some b else Memory.read m j := by
  induction m with
  | nil => simp [Memory.write, Memory.read]
  | cons c m ih =>
    unfold Memory.write
    split
    case isTrue h => by_cases hj : i = j <;> simp [Memory.read, h, hj]
    case isFalse h =>
      split
      case isTrue => by_cases hj : i = j <;> simp [Memory.read, hj]
      case isFalse =>
        by_cases hc : c.1 = j
        · simp [Memory.read, hc, show i ≠ j from fun e => h (hc.trans e.symm)]
        · simp [Memory.read, hc, ih]

@[simp] theorem Memory.read_write_self (m : Memory) (i : Nat) (b : Byte) :
    Memory.read (Memory.write m i b) i = some b := by
  simp [Memory.read_write]

theorem Memory.read_write_other (m : Memory) {i j : Nat} (h : i ≠ j) (b : Byte) :
    Memory.read (Memory.write m i b) j = Memory.read m j := by
  simp [Memory.read_write, h]

/-- The canonical form of a list with a first entry: it lies below every later one, which are canonical. -/
theorem Memory.wf_cons (c : Host.Cell) (m : Memory) :
    Memory.wf (c :: m) = true ↔ (∀ d ∈ m.head?, c.1 < d.1) ∧ Memory.wf m = true := by
  cases m with
  | nil => simp [Memory.wf]
  | cons d m => simp [Memory.wf]

/-- A write's first entry is the old first one or the cell written. -/
theorem Memory.head_write (m : Memory) (i : Nat) (b : Byte) :
    ∀ d ∈ (Memory.write m i b).head?, d.1 = i ∨ d ∈ m.head? := by
  intro d hd
  cases m with
  | nil =>
    left; simp [Memory.write] at hd; rw [← hd]
  | cons c m =>
    unfold Memory.write at hd
    split at hd
    · left; simp at hd; rw [← hd]
    · split at hd
      · left; simp at hd; rw [← hd]
      · right; simpa using hd

/-- A write keeps the canonical form. -/
theorem Memory.wf_write (m : Memory) (i : Nat) (b : Byte) (h : Memory.wf m = true) :
    Memory.wf (Memory.write m i b) = true := by
  induction m with
  | nil => rfl
  | cons c m ih =>
    obtain ⟨hlt, hm⟩ := (Memory.wf_cons c m).mp h
    unfold Memory.write
    split
    case isTrue he => exact (Memory.wf_cons _ _).mpr ⟨fun d hd => he ▸ hlt d hd, hm⟩
    case isFalse he =>
      split
      case isTrue hi => exact (Memory.wf_cons _ _).mpr ⟨fun d hd => by simp at hd; rw [← hd]; exact hi, h⟩
      case isFalse hi =>
        refine (Memory.wf_cons _ _).mpr ⟨fun d hd => ?_, ih hm⟩
        rcases Memory.head_write m i b d hd with hd | hd
        · omega
        · exact hlt d hd

/-- The slots a write leaves listed: the old ones and the one written. -/
theorem Memory.mem_write (m : Memory) (i : Nat) (b : Byte) :
    ∀ d ∈ Memory.write m i b, d.1 = i ∨ d ∈ m := by
  induction m with
  | nil => intro d hd; left; simp [Memory.write] at hd; rw [hd]
  | cons c m ih =>
    intro d hd
    unfold Memory.write at hd
    split at hd
    case isTrue =>
      rcases List.mem_cons.mp hd with hd | hd
      · left; rw [hd]
      · right; exact List.mem_cons_of_mem _ hd
    case isFalse =>
      split at hd
      case isTrue =>
        rcases List.mem_cons.mp hd with hd | hd
        · left; rw [hd]
        · right; exact hd
      case isFalse =>
        rcases List.mem_cons.mp hd with hd | hd
        · right; rw [hd]; exact List.mem_cons_self
        · rcases ih d hd with hd | hd
          · left; exact hd
          · right; exact List.mem_cons_of_mem _ hd

/-- The reset storage has the canonical form. -/
theorem Memory.wf_reset : Memory.wf State.reset.storage = true := rfl

end Sys2Proof.Machine
end

