-- ==== Sys2Proof/Laws/State.lean ====
section
/-! SUPPORT. What each named update of the state does to each field: one lemma per field per update. -/

namespace Sys2Proof.Machine

variable (s : State)

/-! ### log -/

@[simp] theorem State.log_storage (e : Event) : (s.log e).storage = s.storage := rfl
@[simp] theorem State.log_wc (e : Event) : (s.log e).wc = s.wc := rfl
@[simp] theorem State.log_rc (e : Event) : (s.log e).rc = s.rc := rfl
@[simp] theorem State.log_trunc (e : Event) : (s.log e).trunc = s.trunc := rfl
@[simp] theorem State.log_ie (e : Event) : (s.log e).ie = s.ie := rfl
@[simp] theorem State.log_cfg (e : Event) : (s.log e).cfg = s.cfg := rfl
@[simp] theorem State.log_tc (e : Event) : (s.log e).tc = s.tc := rfl
@[simp] theorem State.log_txen (e : Event) : (s.log e).txen = s.txen := rfl
@[simp] theorem State.log_ctx (e : Event) : (s.log e).ctx = s.ctx := rfl
@[simp] theorem State.log_rsp (e : Event) : (s.log e).rsp = s.rsp := rfl
@[simp] theorem State.log_pc (e : Event) : (s.log e).pc = s.pc := rfl
@[simp] theorem State.log_mstate (e : Event) : (s.log e).mstate = s.mstate := rfl
@[simp] theorem State.log_hstate (e : Event) : (s.log e).hstate = s.hstate := rfl
@[simp] theorem State.log_txq (e : Event) : (s.log e).txq = s.txq := rfl
@[simp] theorem State.log_lineOut (e : Event) : (s.log e).lineOut = s.lineOut := rfl
@[simp] theorem State.log_fault (e : Event) : (s.log e).fault = s.fault := rfl
@[simp] theorem State.log_hist (e : Event) : (s.log e).hist = s.hist ++ [e] := rfl
@[simp] theorem State.log_params (e : Event) : (s.log e).params = s.params := rfl
@[simp] theorem State.log_prog (e : Event) : (s.log e).prog = s.prog := rfl
@[simp] theorem State.log_sched (e : Event) : (s.log e).sched = s.sched := rfl
@[simp] theorem State.log_tick (e : Event) : (s.log e).tick = s.tick := rfl

/-! ### complete -/

@[simp] theorem State.complete_storage : (s.complete).storage = s.storage := rfl
@[simp] theorem State.complete_wc : (s.complete).wc = s.wc := rfl
@[simp] theorem State.complete_rc : (s.complete).rc = s.rc := rfl
@[simp] theorem State.complete_trunc : (s.complete).trunc = s.trunc := rfl
@[simp] theorem State.complete_ie : (s.complete).ie = s.ie := rfl
@[simp] theorem State.complete_cfg : (s.complete).cfg = s.cfg := rfl
@[simp] theorem State.complete_tc : (s.complete).tc = s.tc := rfl
@[simp] theorem State.complete_txen : (s.complete).txen = s.txen := rfl
@[simp] theorem State.complete_ctx : (s.complete).ctx = s.ctx := rfl
@[simp] theorem State.complete_rsp : (s.complete).rsp = s.rsp := rfl
@[simp] theorem State.complete_pc : (s.complete).pc = s.pc + 1 := rfl
@[simp] theorem State.complete_mstate : (s.complete).mstate = .idle := rfl
@[simp] theorem State.complete_hstate : (s.complete).hstate = s.hstate := rfl
@[simp] theorem State.complete_txq : (s.complete).txq = s.txq := rfl
@[simp] theorem State.complete_lineOut : (s.complete).lineOut = s.lineOut := rfl
@[simp] theorem State.complete_fault : (s.complete).fault = s.fault := rfl
@[simp] theorem State.complete_hist : (s.complete).hist = s.hist := rfl
@[simp] theorem State.complete_params : (s.complete).params = s.params := rfl
@[simp] theorem State.complete_prog : (s.complete).prog = s.prog := rfl
@[simp] theorem State.complete_sched : (s.complete).sched = s.sched := rfl
@[simp] theorem State.complete_tick : (s.complete).tick = s.tick := rfl

/-! ### goto -/

@[simp] theorem State.goto_storage (m : MState) : (s.goto m).storage = s.storage := rfl
@[simp] theorem State.goto_wc (m : MState) : (s.goto m).wc = s.wc := rfl
@[simp] theorem State.goto_rc (m : MState) : (s.goto m).rc = s.rc := rfl
@[simp] theorem State.goto_trunc (m : MState) : (s.goto m).trunc = s.trunc := rfl
@[simp] theorem State.goto_ie (m : MState) : (s.goto m).ie = s.ie := rfl
@[simp] theorem State.goto_cfg (m : MState) : (s.goto m).cfg = s.cfg := rfl
@[simp] theorem State.goto_tc (m : MState) : (s.goto m).tc = s.tc := rfl
@[simp] theorem State.goto_txen (m : MState) : (s.goto m).txen = s.txen := rfl
@[simp] theorem State.goto_ctx (m : MState) : (s.goto m).ctx = s.ctx := rfl
@[simp] theorem State.goto_rsp (m : MState) : (s.goto m).rsp = s.rsp := rfl
@[simp] theorem State.goto_pc (m : MState) : (s.goto m).pc = s.pc := rfl
@[simp] theorem State.goto_mstate (m : MState) : (s.goto m).mstate = m := rfl
@[simp] theorem State.goto_hstate (m : MState) : (s.goto m).hstate = s.hstate := rfl
@[simp] theorem State.goto_txq (m : MState) : (s.goto m).txq = s.txq := rfl
@[simp] theorem State.goto_lineOut (m : MState) : (s.goto m).lineOut = s.lineOut := rfl
@[simp] theorem State.goto_fault (m : MState) : (s.goto m).fault = s.fault := rfl
@[simp] theorem State.goto_hist (m : MState) : (s.goto m).hist = s.hist := rfl
@[simp] theorem State.goto_params (m : MState) : (s.goto m).params = s.params := rfl
@[simp] theorem State.goto_prog (m : MState) : (s.goto m).prog = s.prog := rfl
@[simp] theorem State.goto_sched (m : MState) : (s.goto m).sched = s.sched := rfl
@[simp] theorem State.goto_tick (m : MState) : (s.goto m).tick = s.tick := rfl

/-! ### enterInterrupt -/

@[simp] theorem State.enterInterrupt_storage : (s.enterInterrupt).storage = s.storage := rfl
@[simp] theorem State.enterInterrupt_wc : (s.enterInterrupt).wc = s.wc := rfl
@[simp] theorem State.enterInterrupt_rc : (s.enterInterrupt).rc = s.rc := rfl
@[simp] theorem State.enterInterrupt_trunc : (s.enterInterrupt).trunc = s.trunc := rfl
@[simp] theorem State.enterInterrupt_ie : (s.enterInterrupt).ie = s.ie := rfl
@[simp] theorem State.enterInterrupt_cfg : (s.enterInterrupt).cfg = s.cfg := rfl
@[simp] theorem State.enterInterrupt_tc : (s.enterInterrupt).tc = s.tc := rfl
@[simp] theorem State.enterInterrupt_txen : (s.enterInterrupt).txen = s.txen := rfl
@[simp] theorem State.enterInterrupt_ctx : (s.enterInterrupt).ctx = .interrupt := rfl
@[simp] theorem State.enterInterrupt_rsp : (s.enterInterrupt).rsp = s.rsp := rfl
@[simp] theorem State.enterInterrupt_pc : (s.enterInterrupt).pc = s.pc := rfl
@[simp] theorem State.enterInterrupt_mstate : (s.enterInterrupt).mstate = s.mstate := rfl
@[simp] theorem State.enterInterrupt_hstate : (s.enterInterrupt).hstate = .drain .s1 := rfl
@[simp] theorem State.enterInterrupt_txq : (s.enterInterrupt).txq = s.txq := rfl
@[simp] theorem State.enterInterrupt_lineOut : (s.enterInterrupt).lineOut = s.lineOut := rfl
@[simp] theorem State.enterInterrupt_fault : (s.enterInterrupt).fault = s.fault := rfl
@[simp] theorem State.enterInterrupt_hist : (s.enterInterrupt).hist = s.hist ++ [.enter] := rfl
@[simp] theorem State.enterInterrupt_params : (s.enterInterrupt).params = s.params := rfl
@[simp] theorem State.enterInterrupt_prog : (s.enterInterrupt).prog = s.prog := rfl
@[simp] theorem State.enterInterrupt_sched : (s.enterInterrupt).sched = s.sched := rfl
@[simp] theorem State.enterInterrupt_tick : (s.enterInterrupt).tick = s.tick := rfl

/-! ### returnFromInterrupt -/

@[simp] theorem State.returnFromInterrupt_storage : (s.returnFromInterrupt).storage = s.storage := rfl
@[simp] theorem State.returnFromInterrupt_wc : (s.returnFromInterrupt).wc = s.wc := rfl
@[simp] theorem State.returnFromInterrupt_rc : (s.returnFromInterrupt).rc = s.rc := rfl
@[simp] theorem State.returnFromInterrupt_trunc : (s.returnFromInterrupt).trunc = s.trunc := rfl
@[simp] theorem State.returnFromInterrupt_ie : (s.returnFromInterrupt).ie = s.ie := rfl
@[simp] theorem State.returnFromInterrupt_cfg : (s.returnFromInterrupt).cfg = s.cfg := rfl
@[simp] theorem State.returnFromInterrupt_tc : (s.returnFromInterrupt).tc = s.tc := rfl
@[simp] theorem State.returnFromInterrupt_txen : (s.returnFromInterrupt).txen = s.txen := rfl
@[simp] theorem State.returnFromInterrupt_ctx : (s.returnFromInterrupt).ctx = .mainline := rfl
@[simp] theorem State.returnFromInterrupt_rsp : (s.returnFromInterrupt).rsp = s.rsp := rfl
@[simp] theorem State.returnFromInterrupt_pc : (s.returnFromInterrupt).pc = s.pc := rfl
@[simp] theorem State.returnFromInterrupt_mstate : (s.returnFromInterrupt).mstate = s.mstate := rfl
@[simp] theorem State.returnFromInterrupt_hstate : (s.returnFromInterrupt).hstate = .drain .s1 := rfl
@[simp] theorem State.returnFromInterrupt_txq : (s.returnFromInterrupt).txq = s.txq := rfl
@[simp] theorem State.returnFromInterrupt_lineOut : (s.returnFromInterrupt).lineOut = s.lineOut := rfl
@[simp] theorem State.returnFromInterrupt_fault : (s.returnFromInterrupt).fault = s.fault := rfl
@[simp] theorem State.returnFromInterrupt_hist : (s.returnFromInterrupt).hist = s.hist ++ [.ret] := rfl
@[simp] theorem State.returnFromInterrupt_params : (s.returnFromInterrupt).params = s.params := rfl
@[simp] theorem State.returnFromInterrupt_prog : (s.returnFromInterrupt).prog = s.prog := rfl
@[simp] theorem State.returnFromInterrupt_sched : (s.returnFromInterrupt).sched = s.sched := rfl
@[simp] theorem State.returnFromInterrupt_tick : (s.returnFromInterrupt).tick = s.tick := rfl

/-! ### clearFlag -/

@[simp] theorem State.clearFlag_storage : (s.clearFlag).storage = s.storage := rfl
@[simp] theorem State.clearFlag_wc : (s.clearFlag).wc = s.wc := rfl
@[simp] theorem State.clearFlag_rc : (s.clearFlag).rc = s.rc := rfl
@[simp] theorem State.clearFlag_trunc : (s.clearFlag).trunc = s.trunc := rfl
@[simp] theorem State.clearFlag_ie : (s.clearFlag).ie = s.ie := rfl
@[simp] theorem State.clearFlag_cfg : (s.clearFlag).cfg = s.cfg := rfl
@[simp] theorem State.clearFlag_tc : (s.clearFlag).tc = false := rfl
@[simp] theorem State.clearFlag_txen : (s.clearFlag).txen = s.txen := rfl
@[simp] theorem State.clearFlag_ctx : (s.clearFlag).ctx = s.ctx := rfl
@[simp] theorem State.clearFlag_rsp : (s.clearFlag).rsp = s.rsp := rfl
@[simp] theorem State.clearFlag_pc : (s.clearFlag).pc = s.pc := rfl
@[simp] theorem State.clearFlag_mstate : (s.clearFlag).mstate = s.mstate := rfl
@[simp] theorem State.clearFlag_hstate : (s.clearFlag).hstate = s.hstate := rfl
@[simp] theorem State.clearFlag_txq : (s.clearFlag).txq = s.txq := rfl
@[simp] theorem State.clearFlag_lineOut : (s.clearFlag).lineOut = s.lineOut := rfl
@[simp] theorem State.clearFlag_fault : (s.clearFlag).fault = s.fault := rfl
@[simp] theorem State.clearFlag_hist : (s.clearFlag).hist = s.hist ++ [.tcClr] := rfl
@[simp] theorem State.clearFlag_params : (s.clearFlag).params = s.params := rfl
@[simp] theorem State.clearFlag_prog : (s.clearFlag).prog = s.prog := rfl
@[simp] theorem State.clearFlag_sched : (s.clearFlag).sched = s.sched := rfl
@[simp] theorem State.clearFlag_tick : (s.clearFlag).tick = s.tick := rfl

/-! ### configure -/

@[simp] theorem State.configure_storage : (s.configure).storage = s.storage := rfl
@[simp] theorem State.configure_wc : (s.configure).wc = s.wc := rfl
@[simp] theorem State.configure_rc : (s.configure).rc = s.rc := rfl
@[simp] theorem State.configure_trunc : (s.configure).trunc = s.trunc := rfl
@[simp] theorem State.configure_ie : (s.configure).ie = true := rfl
@[simp] theorem State.configure_cfg : (s.configure).cfg = true := rfl
@[simp] theorem State.configure_tc : (s.configure).tc = s.tc := rfl
@[simp] theorem State.configure_txen : (s.configure).txen = true := rfl
@[simp] theorem State.configure_ctx : (s.configure).ctx = s.ctx := rfl
@[simp] theorem State.configure_rsp : (s.configure).rsp = s.rsp := rfl
@[simp] theorem State.configure_pc : (s.configure).pc = s.pc := rfl
@[simp] theorem State.configure_mstate : (s.configure).mstate = s.mstate := rfl
@[simp] theorem State.configure_hstate : (s.configure).hstate = s.hstate := rfl
@[simp] theorem State.configure_txq : (s.configure).txq = s.txq := rfl
@[simp] theorem State.configure_lineOut : (s.configure).lineOut = s.lineOut := rfl
@[simp] theorem State.configure_fault : (s.configure).fault = s.fault := rfl
@[simp] theorem State.configure_hist : (s.configure).hist = s.hist := rfl
@[simp] theorem State.configure_params : (s.configure).params = s.params := rfl
@[simp] theorem State.configure_prog : (s.configure).prog = s.prog := rfl
@[simp] theorem State.configure_sched : (s.configure).sched = s.sched := rfl
@[simp] theorem State.configure_tick : (s.configure).tick = s.tick := rfl

/-! ### setEnable -/

@[simp] theorem State.setEnable_storage (e : Bool) : (s.setEnable e).storage = s.storage := rfl
@[simp] theorem State.setEnable_wc (e : Bool) : (s.setEnable e).wc = s.wc := rfl
@[simp] theorem State.setEnable_rc (e : Bool) : (s.setEnable e).rc = s.rc := rfl
@[simp] theorem State.setEnable_trunc (e : Bool) : (s.setEnable e).trunc = s.trunc := rfl
@[simp] theorem State.setEnable_ie (e : Bool) : (s.setEnable e).ie = e := rfl
@[simp] theorem State.setEnable_cfg (e : Bool) : (s.setEnable e).cfg = s.cfg := rfl
@[simp] theorem State.setEnable_tc (e : Bool) : (s.setEnable e).tc = s.tc := rfl
@[simp] theorem State.setEnable_txen (e : Bool) : (s.setEnable e).txen = s.txen := rfl
@[simp] theorem State.setEnable_ctx (e : Bool) : (s.setEnable e).ctx = s.ctx := rfl
@[simp] theorem State.setEnable_rsp (e : Bool) : (s.setEnable e).rsp = s.rsp := rfl
@[simp] theorem State.setEnable_pc (e : Bool) : (s.setEnable e).pc = s.pc := rfl
@[simp] theorem State.setEnable_mstate (e : Bool) : (s.setEnable e).mstate = s.mstate := rfl
@[simp] theorem State.setEnable_hstate (e : Bool) : (s.setEnable e).hstate = s.hstate := rfl
@[simp] theorem State.setEnable_txq (e : Bool) : (s.setEnable e).txq = s.txq := rfl
@[simp] theorem State.setEnable_lineOut (e : Bool) : (s.setEnable e).lineOut = s.lineOut := rfl
@[simp] theorem State.setEnable_fault (e : Bool) : (s.setEnable e).fault = s.fault := rfl
@[simp] theorem State.setEnable_hist (e : Bool) : (s.setEnable e).hist = s.hist := rfl
@[simp] theorem State.setEnable_params (e : Bool) : (s.setEnable e).params = s.params := rfl
@[simp] theorem State.setEnable_prog (e : Bool) : (s.setEnable e).prog = s.prog := rfl
@[simp] theorem State.setEnable_sched (e : Bool) : (s.setEnable e).sched = s.sched := rfl
@[simp] theorem State.setEnable_tick (e : Bool) : (s.setEnable e).tick = s.tick := rfl

/-! ### setTrunc -/

@[simp] theorem State.setTrunc_storage (v : Bool) : (s.setTrunc v).storage = s.storage := rfl
@[simp] theorem State.setTrunc_wc (v : Bool) : (s.setTrunc v).wc = s.wc := rfl
@[simp] theorem State.setTrunc_rc (v : Bool) : (s.setTrunc v).rc = s.rc := rfl
@[simp] theorem State.setTrunc_trunc (v : Bool) : (s.setTrunc v).trunc = v := rfl
@[simp] theorem State.setTrunc_ie (v : Bool) : (s.setTrunc v).ie = s.ie := rfl
@[simp] theorem State.setTrunc_cfg (v : Bool) : (s.setTrunc v).cfg = s.cfg := rfl
@[simp] theorem State.setTrunc_tc (v : Bool) : (s.setTrunc v).tc = s.tc := rfl
@[simp] theorem State.setTrunc_txen (v : Bool) : (s.setTrunc v).txen = s.txen := rfl
@[simp] theorem State.setTrunc_ctx (v : Bool) : (s.setTrunc v).ctx = s.ctx := rfl
@[simp] theorem State.setTrunc_rsp (v : Bool) : (s.setTrunc v).rsp = s.rsp := rfl
@[simp] theorem State.setTrunc_pc (v : Bool) : (s.setTrunc v).pc = s.pc := rfl
@[simp] theorem State.setTrunc_mstate (v : Bool) : (s.setTrunc v).mstate = s.mstate := rfl
@[simp] theorem State.setTrunc_hstate (v : Bool) : (s.setTrunc v).hstate = s.hstate := rfl
@[simp] theorem State.setTrunc_txq (v : Bool) : (s.setTrunc v).txq = s.txq := rfl
@[simp] theorem State.setTrunc_lineOut (v : Bool) : (s.setTrunc v).lineOut = s.lineOut := rfl
@[simp] theorem State.setTrunc_fault (v : Bool) : (s.setTrunc v).fault = s.fault := rfl
@[simp] theorem State.setTrunc_hist (v : Bool) : (s.setTrunc v).hist = s.hist := rfl
@[simp] theorem State.setTrunc_params (v : Bool) : (s.setTrunc v).params = s.params := rfl
@[simp] theorem State.setTrunc_prog (v : Bool) : (s.setTrunc v).prog = s.prog := rfl
@[simp] theorem State.setTrunc_sched (v : Bool) : (s.setTrunc v).sched = s.sched := rfl
@[simp] theorem State.setTrunc_tick (v : Bool) : (s.setTrunc v).tick = s.tick := rfl

/-! ### memWrite -/

@[simp] theorem memWrite_storage (i : Nat) (b : Byte) : (memWrite s i b).storage = Memory.write s.storage i b := rfl
@[simp] theorem memWrite_wc (i : Nat) (b : Byte) : (memWrite s i b).wc = s.wc := rfl
@[simp] theorem memWrite_rc (i : Nat) (b : Byte) : (memWrite s i b).rc = s.rc := rfl
@[simp] theorem memWrite_trunc (i : Nat) (b : Byte) : (memWrite s i b).trunc = s.trunc := rfl
@[simp] theorem memWrite_ie (i : Nat) (b : Byte) : (memWrite s i b).ie = s.ie := rfl
@[simp] theorem memWrite_cfg (i : Nat) (b : Byte) : (memWrite s i b).cfg = s.cfg := rfl
@[simp] theorem memWrite_tc (i : Nat) (b : Byte) : (memWrite s i b).tc = s.tc := rfl
@[simp] theorem memWrite_txen (i : Nat) (b : Byte) : (memWrite s i b).txen = s.txen := rfl
@[simp] theorem memWrite_ctx (i : Nat) (b : Byte) : (memWrite s i b).ctx = s.ctx := rfl
@[simp] theorem memWrite_rsp (i : Nat) (b : Byte) : (memWrite s i b).rsp = s.rsp := rfl
@[simp] theorem memWrite_pc (i : Nat) (b : Byte) : (memWrite s i b).pc = s.pc := rfl
@[simp] theorem memWrite_mstate (i : Nat) (b : Byte) : (memWrite s i b).mstate = s.mstate := rfl
@[simp] theorem memWrite_hstate (i : Nat) (b : Byte) : (memWrite s i b).hstate = s.hstate := rfl
@[simp] theorem memWrite_txq (i : Nat) (b : Byte) : (memWrite s i b).txq = s.txq := rfl
@[simp] theorem memWrite_lineOut (i : Nat) (b : Byte) : (memWrite s i b).lineOut = s.lineOut := rfl
@[simp] theorem memWrite_fault (i : Nat) (b : Byte) : (memWrite s i b).fault = s.fault := rfl
@[simp] theorem memWrite_hist (i : Nat) (b : Byte) : (memWrite s i b).hist = s.hist := rfl
@[simp] theorem memWrite_params (i : Nat) (b : Byte) : (memWrite s i b).params = s.params := rfl
@[simp] theorem memWrite_prog (i : Nat) (b : Byte) : (memWrite s i b).prog = s.prog := rfl
@[simp] theorem memWrite_sched (i : Nat) (b : Byte) : (memWrite s i b).sched = s.sched := rfl
@[simp] theorem memWrite_tick (i : Nat) (b : Byte) : (memWrite s i b).tick = s.tick := rfl

/-! ### dropByte -/

@[simp] theorem dropByte_storage (b : Byte) : (dropByte b s).storage = s.storage := rfl
@[simp] theorem dropByte_wc (b : Byte) : (dropByte b s).wc = s.wc := rfl
@[simp] theorem dropByte_rc (b : Byte) : (dropByte b s).rc = s.rc := rfl
@[simp] theorem dropByte_trunc (b : Byte) : (dropByte b s).trunc = s.trunc := rfl
@[simp] theorem dropByte_ie (b : Byte) : (dropByte b s).ie = s.ie := rfl
@[simp] theorem dropByte_cfg (b : Byte) : (dropByte b s).cfg = s.cfg := rfl
@[simp] theorem dropByte_tc (b : Byte) : (dropByte b s).tc = s.tc := rfl
@[simp] theorem dropByte_txen (b : Byte) : (dropByte b s).txen = s.txen := rfl
@[simp] theorem dropByte_ctx (b : Byte) : (dropByte b s).ctx = s.ctx := rfl
@[simp] theorem dropByte_rsp (b : Byte) : (dropByte b s).rsp = s.rsp := rfl
@[simp] theorem dropByte_pc (b : Byte) : (dropByte b s).pc = s.pc + 1 := rfl
@[simp] theorem dropByte_mstate (b : Byte) : (dropByte b s).mstate = .idle := rfl
@[simp] theorem dropByte_hstate (b : Byte) : (dropByte b s).hstate = s.hstate := rfl
@[simp] theorem dropByte_txq (b : Byte) : (dropByte b s).txq = s.txq := rfl
@[simp] theorem dropByte_lineOut (b : Byte) : (dropByte b s).lineOut = s.lineOut := rfl
@[simp] theorem dropByte_fault (b : Byte) : (dropByte b s).fault = s.fault := rfl
@[simp] theorem dropByte_hist (b : Byte) : (dropByte b s).hist = s.hist ++ [.drop b] := rfl
@[simp] theorem dropByte_params (b : Byte) : (dropByte b s).params = s.params := rfl
@[simp] theorem dropByte_prog (b : Byte) : (dropByte b s).prog = s.prog := rfl
@[simp] theorem dropByte_sched (b : Byte) : (dropByte b s).sched = s.sched := rfl
@[simp] theorem dropByte_tick (b : Byte) : (dropByte b s).tick = s.tick := rfl

/-! ### spend -/

@[simp] theorem State.spend_storage : (s.spend).storage = s.storage := rfl
@[simp] theorem State.spend_wc : (s.spend).wc = s.wc := rfl
@[simp] theorem State.spend_rc : (s.spend).rc = s.rc := rfl
@[simp] theorem State.spend_trunc : (s.spend).trunc = s.trunc := rfl
@[simp] theorem State.spend_ie : (s.spend).ie = s.ie := rfl
@[simp] theorem State.spend_cfg : (s.spend).cfg = s.cfg := rfl
@[simp] theorem State.spend_tc : (s.spend).tc = s.tc := rfl
@[simp] theorem State.spend_txen : (s.spend).txen = s.txen := rfl
@[simp] theorem State.spend_ctx : (s.spend).ctx = s.ctx := rfl
@[simp] theorem State.spend_rsp : (s.spend).rsp = s.rsp := rfl
@[simp] theorem State.spend_pc : (s.spend).pc = s.pc := rfl
@[simp] theorem State.spend_mstate : (s.spend).mstate = s.mstate := rfl
@[simp] theorem State.spend_hstate : (s.spend).hstate = s.hstate := rfl
@[simp] theorem State.spend_txq : (s.spend).txq = s.txq := rfl
@[simp] theorem State.spend_lineOut : (s.spend).lineOut = s.lineOut := rfl
@[simp] theorem State.spend_fault : (s.spend).fault = s.fault := rfl
@[simp] theorem State.spend_hist : (s.spend).hist = s.hist := rfl
@[simp] theorem State.spend_params : (s.spend).params = s.params := rfl
@[simp] theorem State.spend_prog : (s.spend).prog = s.prog := rfl
@[simp] theorem State.spend_sched : (s.spend).sched = s.sched.tail := rfl
@[simp] theorem State.spend_tick : (s.spend).tick = s.tick + 1 := rfl

/-! ### raise -/

/-- A fault that stands is kept (R39). -/
theorem State.raise_of_some {s : State} {f : FaultRecord} (h : s.fault = some f) (r : FaultRecord) :
    s.raise r = s := by
  unfold State.raise; rw [h]

/-- `raise` sets `fault` and nothing else (R130). -/
theorem State.raise_of_none {s : State} (h : s.fault = none) (r : FaultRecord) :
    s.raise r = { s with fault := some r } := by
  unfold State.raise; rw [h]

theorem State.raise_fault_of_none {s : State} (h : s.fault = none) (r : FaultRecord) :
    (s.raise r).fault = some r := by
  rw [State.raise_of_none h]

@[simp] theorem State.raise_storage (r : FaultRecord) : (s.raise r).storage = s.storage := by
  unfold State.raise; split <;> rfl
@[simp] theorem State.raise_wc (r : FaultRecord) : (s.raise r).wc = s.wc := by
  unfold State.raise; split <;> rfl
@[simp] theorem State.raise_rc (r : FaultRecord) : (s.raise r).rc = s.rc := by
  unfold State.raise; split <;> rfl
@[simp] theorem State.raise_trunc (r : FaultRecord) : (s.raise r).trunc = s.trunc := by
  unfold State.raise; split <;> rfl
@[simp] theorem State.raise_ie (r : FaultRecord) : (s.raise r).ie = s.ie := by
  unfold State.raise; split <;> rfl
@[simp] theorem State.raise_cfg (r : FaultRecord) : (s.raise r).cfg = s.cfg := by
  unfold State.raise; split <;> rfl
@[simp] theorem State.raise_tc (r : FaultRecord) : (s.raise r).tc = s.tc := by
  unfold State.raise; split <;> rfl
@[simp] theorem State.raise_txen (r : FaultRecord) : (s.raise r).txen = s.txen := by
  unfold State.raise; split <;> rfl
@[simp] theorem State.raise_ctx (r : FaultRecord) : (s.raise r).ctx = s.ctx := by
  unfold State.raise; split <;> rfl
@[simp] theorem State.raise_rsp (r : FaultRecord) : (s.raise r).rsp = s.rsp := by
  unfold State.raise; split <;> rfl
@[simp] theorem State.raise_pc (r : FaultRecord) : (s.raise r).pc = s.pc := by
  unfold State.raise; split <;> rfl
@[simp] theorem State.raise_mstate (r : FaultRecord) : (s.raise r).mstate = s.mstate := by
  unfold State.raise; split <;> rfl
@[simp] theorem State.raise_hstate (r : FaultRecord) : (s.raise r).hstate = s.hstate := by
  unfold State.raise; split <;> rfl
@[simp] theorem State.raise_txq (r : FaultRecord) : (s.raise r).txq = s.txq := by
  unfold State.raise; split <;> rfl
@[simp] theorem State.raise_lineOut (r : FaultRecord) : (s.raise r).lineOut = s.lineOut := by
  unfold State.raise; split <;> rfl
@[simp] theorem State.raise_hist (r : FaultRecord) : (s.raise r).hist = s.hist := by
  unfold State.raise; split <;> rfl
@[simp] theorem State.raise_params (r : FaultRecord) : (s.raise r).params = s.params := by
  unfold State.raise; split <;> rfl
@[simp] theorem State.raise_prog (r : FaultRecord) : (s.raise r).prog = s.prog := by
  unfold State.raise; split <;> rfl
@[simp] theorem State.raise_sched (r : FaultRecord) : (s.raise r).sched = s.sched := by
  unfold State.raise; split <;> rfl
@[simp] theorem State.raise_tick (r : FaultRecord) : (s.raise r).tick = s.tick := by
  unfold State.raise; split <;> rfl

end Sys2Proof.Machine
end

