-- ==== Sys2Proof/Laws/Ops.lean ====
section
/-! SUPPORT. Each shared operation, said once: when it goes through, and everything it can answer. -/

namespace Sys2Proof.Machine

variable {s t : State} {i : Instr} {body : StepOutcome}

/-! ### issue, prologue, oneStep -/

/-- A command issued where it may be runs its body. -/
theorem issue_ok (hf : s.fault = none) (hi : i.issuableIn s.ctx = true) : issue i s body = body := by
  unfold issue; rw [hf]; simp [hi]

/-- A command issued by the wrong agent raises `F_CONTEXT` (R73). -/
theorem issue_wrong (hf : s.fault = none) (hi : i.issuableIn s.ctx = false) :
    issue i s body = .next (s.raise (.context s.pc (encode i))) := by
  unfold issue; rw [hf]; simp [hi]

/-- No agent steps while `fault ≠ none` (R130). -/
theorem issue_faulted {r : FaultRecord} (hf : s.fault = some r) :
    issue i s body = .fault (.halted r) := by
  unfold issue; rw [hf]

/-- Everything `issue` can answer as a next state. -/
theorem issue_next (h : issue i s body = .next t) :
    s.fault = none ∧ (i.issuableIn s.ctx = true ∧ body = .next t ∨
      i.issuableIn s.ctx = false ∧ t = s.raise (.context s.pc (encode i))) := by
  cases hf : s.fault with
  | some r => rw [issue_faulted hf] at h; cases h
  | none =>
    refine ⟨rfl, ?_⟩
    cases hi : i.issuableIn s.ctx with
    | true => exact .inl ⟨rfl, by rwa [issue_ok hf hi] at h⟩
    | false => rw [issue_wrong hf hi] at h; cases h; exact .inr ⟨rfl, rfl⟩

/-- The prologue passes for `CFG`, and for every command once configured (R80). -/
theorem prologue_ok (h : s.cfg = true ∨ i = .cfg) : prologue i s body = body := by
  unfold prologue
  rcases h with h | h <;> simp [h]

/-- Everything the prologue can answer as a next state. -/
theorem prologue_next (h : prologue i s body = .next t) :
    (s.cfg = true ∨ i = .cfg) ∧ body = .next t ∨
      s.cfg = false ∧ i ≠ .cfg ∧ t = s.raise (.notConfigured s.pc (encode i)) := by
  unfold prologue at h
  split at h
  case isTrue hc => cases h; exact .inr ⟨hc.1, hc.2, rfl⟩
  case isFalse hc =>
    refine .inl ⟨?_, h⟩
    by_cases hi : i = .cfg
    · exact .inr hi
    · exact .inl (by simpa [hi] using hc)

/-- A command of one step runs its body at the start of a command (R80). -/
theorem oneStep_ok (hf : s.fault = none) (hi : i.issuableIn s.ctx = true) (hm : s.mstate = .idle)
    (hc : s.cfg = true ∨ i = .cfg) : oneStep i s body = body := by
  unfold oneStep
  rw [issue_ok hf hi, hm, prologue_ok hc]

/-- Everything a command of one step can answer as a next state. -/
theorem oneStep_next (h : oneStep i s body = .next t) :
    s.fault = none ∧
      (i.issuableIn s.ctx = true ∧ s.mstate = .idle ∧ (s.cfg = true ∨ i = .cfg) ∧ body = .next t ∨
       i.issuableIn s.ctx = true ∧ s.mstate = .idle ∧ s.cfg = false ∧ i ≠ .cfg ∧
         t = s.raise (.notConfigured s.pc (encode i)) ∨
       i.issuableIn s.ctx = false ∧ t = s.raise (.context s.pc (encode i))) := by
  obtain ⟨hf, ⟨hi, h⟩ | ⟨hi, h⟩⟩ := issue_next h
  · refine ⟨hf, ?_⟩
    cases hm : s.mstate <;> rw [hm] at h <;> simp only [reduceCtorEq] at h
    rcases prologue_next h with ⟨hc, h⟩ | ⟨hc, hne, h⟩
    · exact .inl ⟨hi, rfl, hc, h⟩
    · exact .inr (.inl ⟨hi, rfl, hc, hne, h⟩)
  · exact ⟨hf, .inr (.inr ⟨hi, h⟩)⟩

/-! ### The peripheral -/

theorem ready_iff : s.ready = true ↔ s.txen = true ∧ s.txq.length < s.params.dTx := by
  simp [State.ready]

/-- `push` when ready (R117). -/
theorem push_ready (h : s.ready = true) (b : Byte) :
    push s b = .ok { s with txq := s.txq ++ [b] } := by
  unfold push; rw [h]; rfl

/-- `push` when not ready (R117, R137). -/
theorem push_not_ready (h : s.ready = false) (b : Byte) : push s b = .error (.pushNotReady b) := by
  unfold push; rw [h]; rfl

theorem lineStep_nil (h : s.txq = []) : lineStep s = s := by
  unfold lineStep; rw [h]

theorem lineStep_cons {b : Byte} {rest : List Byte} (h : s.txq = b :: rest) :
    lineStep s = transmit s b rest := by
  unfold lineStep; rw [h]

/-- A `line_step` with the flag set (R119, R120). -/
theorem transmit_setting {b : Byte} {rest : List Byte} (h : setsTc s.params.tcPolicy rest = true) :
    transmit s b rest =
      { s with txq := rest, lineOut := s.lineOut ++ [b], tc := true,
               hist := s.hist ++ [.tx b] ++ [.tcSet] } := by
  simp [transmit, h]

/-- A `line_step` that leaves the flag (R120). -/
theorem transmit_leaving {b : Byte} {rest : List Byte} (h : setsTc s.params.tcPolicy rest = false) :
    transmit s b rest =
      { s with txq := rest, lineOut := s.lineOut ++ [b], hist := s.hist ++ [.tx b] } := by
  simp [transmit, h]

/-! ### The drain pass -/

/-- The moves of a drain pass from label to label (R101). -/
inductive PassGoes (s : State) : DrainLabel → DrainLabel → State → Prop where
  | ready (h : s.ready = true) : PassGoes s .s1 .s2 s
  | nonempty (h : s.rc ≠ s.wc) : PassGoes s .s2 .s3 s
  | push (b : Byte) (hr : s.rc < s.params.capacity) (hb : Memory.read s.storage s.rc = some b)
      (h : s.ready = true) :
      PassGoes s .s3 (.s4 b) { s with txq := s.txq ++ [b], hist := s.hist ++ [.push b] }
  | advance (b : Byte) : PassGoes s (.s4 b) .s1 { s with rc := s.next s.rc }

/-- What a move of a drain pass leaves unchanged: all but `txq` and the history (S3) and `rc` (S4). -/
theorem PassGoes.frame {d d' : DrainLabel} {s' : State} (h : PassGoes s d d' s') :
    { s' with txq := s.txq, hist := s.hist, rc := s.rc } = s := by
  cases h <;> rfl

/-- The exits of a drain pass (R101). -/
inductive PassExits (s : State) : DrainLabel → Prop where
  | notReady (h : s.ready = false) : PassExits s .s1
  | empty (h : s.rc = s.wc) : PassExits s .s2

/-- The faults of a drain pass (R101, R137, R138). -/
inductive PassRaises (s : State) : DrainLabel → FaultRecord → Prop where
  | unwritten (hr : s.rc < s.params.capacity) (hb : Memory.read s.storage s.rc = none) :
      PassRaises s .s3 (.unwrittenSlot s.rc)
  | notReady (b : Byte) (hr : s.rc < s.params.capacity) (hb : Memory.read s.storage s.rc = some b)
      (h : s.ready = false) : PassRaises s .s3 (.pushNotReady b)

/-- Everything one step of a drain pass can do. -/
theorem drainPass_cases (d : DrainLabel) (s : State) :
    (∃ d' s', drainPass d s = .goto d' s' ∧ PassGoes s d d' s') ∨
    (drainPass d s = .exit s ∧ PassExits s d) ∨
    (∃ r, drainPass d s = .raised r ∧ PassRaises s d r) ∨
    (drainPass d s = .stop (.noSuchSlot s.rc) ∧ d = .s3 ∧ s.params.capacity ≤ s.rc) := by
  cases d with
  | s1 =>
    cases h : s.ready with
    | true => exact .inl ⟨.s2, s, by simp [drainPass, h], .ready h⟩
    | false => exact .inr (.inl ⟨by simp [drainPass, h], .notReady h⟩)
  | s2 =>
    by_cases h : s.rc = s.wc
    · exact .inr (.inl ⟨by simp [drainPass, h], .empty h⟩)
    · exact .inl ⟨.s3, s, by simp [drainPass, h], .nonempty h⟩
  | s3 =>
    by_cases hr : s.rc < s.params.capacity
    · cases hb : Memory.read s.storage s.rc with
      | none =>
        exact .inr (.inr (.inl ⟨_, by simp [drainPass, passS3, memRead, hr, hb], .unwritten hr hb⟩))
      | some b =>
        cases h : s.ready with
        | true =>
          exact .inl ⟨.s4 b, _, by
            simp [drainPass, passS3, memRead, hr, hb, push_ready h, State.log], .push b hr hb h⟩
        | false =>
          exact .inr (.inr (.inl ⟨_, by
            simp [drainPass, passS3, memRead, hr, hb, push_not_ready h], .notReady b hr hb h⟩))
    · exact .inr (.inr (.inr ⟨by simp [drainPass, passS3, memRead, hr], rfl, by omega⟩))
  | s4 b => exact .inl ⟨.s1, _, rfl, .advance b⟩

theorem drainPass_goes {d d' : DrainLabel} {s' : State} (h : PassGoes s d d' s') :
    drainPass d s = .goto d' s' := by
  cases h with
  | ready h => simp [drainPass, h]
  | nonempty h => simp [drainPass, h]
  | push b hr hb h => simp [drainPass, passS3, memRead, hr, hb, push_ready h, State.log]
  | advance b => rfl

theorem drainPass_exits {d : DrainLabel} (h : PassExits s d) : drainPass d s = .exit s := by
  cases h with
  | notReady h => simp [drainPass, h]
  | empty h => simp [drainPass, h]

theorem drainPass_raises {d : DrainLabel} {r : FaultRecord} (h : PassRaises s d r) :
    drainPass d s = .raised r := by
  cases h with
  | unwritten hr hb => simp [drainPass, passS3, memRead, hr, hb]
  | notReady b hr hb h => simp [drainPass, passS3, memRead, hr, hb, push_not_ready h]

variable {going : DrainLabel → State → State} {exited : State → State}

theorem runPass_goes {d d' : DrainLabel} {s' : State} (h : PassGoes s d d' s') :
    runPass d s going exited = .next (going d' s') := by
  unfold runPass; rw [drainPass_goes h]

theorem runPass_exits {d : DrainLabel} (h : PassExits s d) :
    runPass d s going exited = .next (exited s) := by
  unfold runPass; rw [drainPass_exits h]

theorem runPass_raises {d : DrainLabel} {r : FaultRecord} (h : PassRaises s d r) :
    runPass d s going exited = .next (s.raise r) := by
  unfold runPass; rw [drainPass_raises h]

/-- Everything a step of a pass inside a command can answer as a next state. -/
theorem runPass_next {d : DrainLabel} (h : runPass d s going exited = .next t) :
    (∃ d' s', PassGoes s d d' s' ∧ t = going d' s') ∨ (PassExits s d ∧ t = exited s) ∨
      (∃ r, PassRaises s d r ∧ t = s.raise r) := by
  rcases drainPass_cases d s with ⟨d', s', -, hp⟩ | ⟨-, hp⟩ | ⟨r, -, hp⟩ | ⟨hp, -, -⟩
  · rw [runPass_goes hp] at h; cases h; exact .inl ⟨d', s', hp, rfl⟩
  · rw [runPass_exits hp] at h; cases h; exact .inr (.inl ⟨hp, rfl⟩)
  · rw [runPass_raises hp] at h; cases h; exact .inr (.inr ⟨r, hp, rfl⟩)
  · unfold runPass at h; rw [hp] at h; cases h

end Sys2Proof.Machine
end

