-- ==== Sys2Proof/Laws/Micro.lean ====
section
/-! SUPPORT. Every atomic step of every agent, as one relation: what it needs and what it leaves. A proof about
all steps is a case analysis of `Micro`, not an unfolding of the meanings. -/

namespace Sys2Proof.Machine

/-- `MAINLINE` owns the core and nothing has faulted. -/
structure State.Main (s : State) : Prop where
  fault : s.fault = none
  ctx : s.ctx = .mainline

/-- The core is in the interrupt context and nothing has faulted. -/
structure State.Hand (s : State) : Prop where
  fault : s.fault = none
  ctx : s.ctx = .interrupt

/-- A command begins: `mstate = Idle` and the prologue has passed (R80). -/
def State.Begins (s : State) : Prop := s.mstate = .idle ∧ s.cfg = true

/-- The mainline's `DRAIN` stands at a label of its pass; at the start of the command, that is S1 (R80, R87). -/
def State.DrainAt (s : State) (d : DrainLabel) : Prop :=
  s.Begins ∧ s.ie = false ∧ d = .s1 ∨ s.mstate = .drain d

/-- One atomic step of one agent. -/
inductive Micro (s : State) : Turn → State → Prop where
  /-- A model fault with a code of the prologue or of `CFG` or `DRAIN` (R130, codes 1 to 5). -/
  | raise (m : s.Main) (r : FaultRecord) (hr : r.code ≤ 5) : Micro s .mainline (s.raise r)
  | cfg (m : s.Main) (hb : s.Fetches .cfg) (hi : s.mstate = .idle) (h : s.cfg = false) : Micro s .mainline s.configure.complete
  | enqbDropTruncated (m : s.Main) (b : Byte) (hb : s.Fetches (.enqb b))
      (hs : s.Begins ∨ s.mstate = .enqbS1) (hp : s.params.enqPolicy = .nonblocking)
      (h : s.trunc = true) : Micro s .mainline (dropByte b s)
  | enqbSnapshot (m : s.Main) (b : Byte) (hb : s.Fetches (.enqb b))
      (hs : s.Begins ∨ s.mstate = .enqbS1) (hp : s.params.enqPolicy = .nonblocking)
      (h : s.trunc = false) : Micro s .mainline (s.goto (.enqbS2 s.rc (s.next s.wc)))
  | enqbClaim (m : s.Main) (b : Byte) (hb : s.Fetches (.enqb b))
      (hs : s.Begins ∨ s.mstate = .enqbS1) (hp : s.params.enqPolicy = .blocking)
      (h : s.next s.wc ≠ s.rc) : Micro s .mainline (s.goto (.enqbS3 none (s.next s.wc)))
  | enqbDropFull (m : s.Main) (b : Byte) (hb : s.Fetches (.enqb b)) (r n : Nat)
      (hs : s.mstate = .enqbS2 r n) (hp : s.params.enqPolicy = .nonblocking) (h : n = r) :
      Micro s .mainline (dropByte b (s.setTrunc true))
  | enqbFits (m : s.Main) (b : Byte) (hb : s.Fetches (.enqb b)) (r n : Nat)
      (hs : s.mstate = .enqbS2 r n) (hp : s.params.enqPolicy = .nonblocking) (h : n ≠ r) :
      Micro s .mainline (s.goto (.enqbS3 (some r) n))
  | enqbStore (m : s.Main) (b : Byte) (hb : s.Fetches (.enqb b)) (r : Option Nat) (n : Nat)
      (hs : s.mstate = .enqbS3 r n) (h : s.wc < s.params.capacity) :
      Micro s .mainline ((memWrite s s.wc b).goto (.enqbS4 r n))
  | enqbPublish (m : s.Main) (b : Byte) (hb : s.Fetches (.enqb b)) (r : Option Nat) (n : Nat)
      (hs : s.mstate = .enqbS4 r n) : Micro s .mainline ({ s with wc := n }.log (.enq b)).complete
  | enqe (m : s.Main) (hb : s.Fetches .enqe) (hs : s.Begins) : Micro s .mainline (s.setTrunc false).complete
  | primeDisable (m : s.Main) (hb : s.Fetches .prime) (hs : s.Begins ∨ s.mstate = .primeP1) :
      Micro s .mainline ((s.setEnable false).goto (.primeP2 .s1))
  | primePass (m : s.Main) (hb : s.Fetches .prime) (d d' : DrainLabel) (s' : State)
      (hs : s.mstate = .primeP2 d) (h : PassGoes s d d' s') : Micro s .mainline (s'.goto (.primeP2 d'))
  | primeExit (m : s.Main) (hb : s.Fetches .prime) (d : DrainLabel) (hs : s.mstate = .primeP2 d)
      (h : PassExits s d) : Micro s .mainline (s.goto .primeP3)
  | primeRaise (m : s.Main) (d : DrainLabel) (r : FaultRecord) (hs : s.mstate = .primeP2 d)
      (h : PassRaises s d r) : Micro s .mainline (s.raise r)
  | primeEnable (m : s.Main) (hb : s.Fetches .prime) (hs : s.mstate = .primeP3) :
      Micro s .mainline (s.setEnable true).complete
  | drainPass (m : s.Main) (hb : s.Fetches .drain) (d d' : DrainLabel) (s' : State)
      (hs : s.DrainAt d) (h : PassGoes s d d' s') : Micro s .mainline (s'.goto (.drain d'))
  | drainExit (m : s.Main) (hb : s.Fetches .drain) (d : DrainLabel) (hs : s.DrainAt d)
      (h : PassExits s d) : Micro s .mainline s.complete
  | drainRaise (m : s.Main) (d : DrainLabel) (r : FaultRecord) (hs : s.DrainAt d)
      (h : PassRaises s d r) : Micro s .mainline (s.raise r)
  | ien (m : s.Main) (e : Bool) (hb : s.Fetches (.ien e)) (hs : s.Begins) : Micro s .mainline (s.setEnable e).complete
  | empty (m : s.Main) (hb : s.Fetches .empty) (hs : s.Begins) :
      Micro s .mainline { s with rsp := some (zext16Bool s.isEmpty) }.complete
  | occ (m : s.Main) (hb : s.Fetches .occ) (hs : s.Begins) :
      Micro s .mainline { s with rsp := some (zext16 s.occ) }.complete
  | handlerPass (m : s.Hand) (d d' : DrainLabel) (s' : State) (hs : s.hstate = .drain d)
      (h : PassGoes s d d' s') : Micro s .handler { s' with hstate := .drain d' }
  | handlerExit (m : s.Hand) (d : DrainLabel) (hs : s.hstate = .drain d) (h : PassExits s d) :
      Micro s .handler { s with hstate := .clrf }
  | handlerRaise (m : s.Hand) (d : DrainLabel) (r : FaultRecord) (hs : s.hstate = .drain d)
      (h : PassRaises s d r) : Micro s .handler (s.raise r)
  | clrf (m : s.Hand) (hs : s.hstate = .clrf) : Micro s .handler { s.clearFlag with hstate := .iret }
  | iret (m : s.Hand) (hs : s.hstate = .iret) : Micro s .handler s.returnFromInterrupt
  | entry (m : s.Main) (h : s.irq = true) : Micro s .entry s.enterInterrupt
  | line (hf : s.fault = none) (he : s.txen = true) (b : Byte) (rest : List Byte)
      (h : s.txq = b :: rest) : Micro s .line (transmit s b rest)

variable {s t : State}

/-! ### The mainline's commands -/

/-- A command of one step: a fault of the prologue, or its own step. -/
theorem micro_of_oneStep {i : Instr} {body : StepOutcome} (hc : s.ctx = .mainline)
    (hbody : s.Main → s.mstate = .idle → (s.cfg = true ∨ i = .cfg) → body = .next t → Micro s .mainline t)
    (h : oneStep i s body = .next t) : Micro s .mainline t := by
  obtain ⟨hf, ⟨-, hm, hcfg, h⟩ | ⟨-, -, -, -, rfl⟩ | ⟨-, rfl⟩⟩ := oneStep_next h
  · exact hbody ⟨hf, hc⟩ hm hcfg h
  · exact .raise ⟨hf, hc⟩ _ (by simp [FaultRecord.code])
  · exact .raise ⟨hf, hc⟩ _ (by simp [FaultRecord.code])

theorem micro_of_enqbS1 {b : Byte} (m : s.Main) (hb : s.Fetches (.enqb b))
    (hs : s.Begins ∨ s.mstate = .enqbS1)
    (hh : s.params.enqPolicy = .blocking → s.next s.wc ≠ s.rc)
    (h : enqbS1 b s = .next t) : Micro s .mainline t := by
  unfold enqbS1 at h
  split at h
  case h_1 hp =>
    split at h
    case isTrue ht => cases h; exact .enqbDropTruncated m b hb hs hp ht
    case isFalse ht => cases h; exact .enqbSnapshot m b hb hs hp (by simpa using ht)
  case h_2 hp =>
    rw [if_neg (by simpa [State.isFull] using hh hp)] at h
    cases h
    exact .enqbClaim m b hb hs hp (hh hp)

theorem micro_of_execEnqb {b : Byte} (hc : s.ctx = .mainline) (hb : s.Fetches (.enqb b))
    (hh : s.Begins ∨ s.mstate = .enqbS1 → s.params.enqPolicy = .blocking → s.next s.wc ≠ s.rc)
    (h : execEnqb b s = .next t) : Micro s .mainline t := by
  obtain ⟨hf, ⟨-, h⟩ | ⟨-, rfl⟩⟩ := issue_next h
  case inr => exact .raise ⟨hf, hc⟩ _ (by simp [FaultRecord.code])
  have m : s.Main := ⟨hf, hc⟩
  cases hm : s.mstate <;> rw [hm] at h <;> simp only [reduceCtorEq] at h
  case idle =>
    obtain ⟨hcfg, h⟩ | ⟨-, -, rfl⟩ := prologue_next h
    · have hs : s.Begins := ⟨hm, by simpa using hcfg⟩
      exact micro_of_enqbS1 m hb (.inl hs) (hh (.inl hs)) h
    · exact .raise m _ (by simp [FaultRecord.code])
  case enqbS1 => exact micro_of_enqbS1 m hb (.inr hm) (hh (.inr hm)) h
  case enqbS2 r n =>
    unfold enqbS2 at h
    split at h
    case h_2 => cases h
    case h_1 hp =>
      split at h
      case isTrue hn => cases h; exact .enqbDropFull m b hb r n hm hp hn
      case isFalse hn => cases h; exact .enqbFits m b hb r n hm hp hn
  case enqbS3 r n =>
    unfold enqbS3 at h
    split at h
    case isTrue hw => cases h; exact .enqbStore m b hb r n hm hw
    case isFalse => cases h
  case enqbS4 r n => cases h; exact .enqbPublish m b hb r n hm

theorem micro_of_execPrime (hc : s.ctx = .mainline) (hb : s.Fetches .prime)
    (h : execPrime s = .next t) : Micro s .mainline t := by
  obtain ⟨hf, ⟨-, h⟩ | ⟨-, rfl⟩⟩ := issue_next h
  case inr => exact .raise ⟨hf, hc⟩ _ (by simp [FaultRecord.code])
  have m : s.Main := ⟨hf, hc⟩
  cases hm : s.mstate <;> rw [hm] at h <;> simp only [reduceCtorEq] at h
  case idle =>
    obtain ⟨hcfg, h⟩ | ⟨-, -, rfl⟩ := prologue_next h
    · cases h; exact .primeDisable m hb (.inl ⟨hm, by simpa using hcfg⟩)
    · exact .raise m _ (by simp [FaultRecord.code])
  case primeP1 => cases h; exact .primeDisable m hb (.inr hm)
  case primeP2 d =>
    obtain ⟨d', s', hp, rfl⟩ | ⟨hp, rfl⟩ | ⟨r, hp, rfl⟩ := runPass_next h
    · exact .primePass m hb d d' s' hm hp
    · exact .primeExit m hb d hm hp
    · exact .primeRaise m d r hm hp
  case primeP3 => cases h; exact .primeEnable m hb hm

theorem micro_of_drainMainlinePass {d : DrainLabel} (m : s.Main) (hb : s.Fetches .drain)
    (hs : s.DrainAt d) (h : drainMainlinePass d s = .next t) : Micro s .mainline t := by
  obtain ⟨d', s', hp, rfl⟩ | ⟨hp, rfl⟩ | ⟨r, hp, rfl⟩ := runPass_next h
  · exact .drainPass m hb d d' s' hs hp
  · exact .drainExit m hb d hs hp
  · exact .drainRaise m d r hs hp

theorem micro_of_drainMainline (m : s.Main) (hb : s.Fetches .drain)
    (h : drainMainline s = .next t) : Micro s .mainline t := by
  unfold drainMainline at h
  cases hm : s.mstate <;> rw [hm] at h <;> simp only [reduceCtorEq] at h
  case idle =>
    obtain ⟨hcfg, h⟩ | ⟨-, -, rfl⟩ := prologue_next h
    · split at h
      case isTrue => cases h; exact .raise m _ (by simp [FaultRecord.code])
      case isFalse hi =>
        exact micro_of_drainMainlinePass m hb
          (.inl ⟨⟨hm, by simpa using hcfg⟩, by simpa using hi, rfl⟩) h
    · exact .raise m _ (by simp [FaultRecord.code])
  case drain d => exact micro_of_drainMainlinePass m hb (.inr hm) h

/-- Every next state of a mainline command is one atomic step. -/
theorem micro_of_exec_mainline {i : Instr} (hc : s.ctx = .mainline) (hb : s.Fetches i)
    (hh : s.holds = false) (h : exec i s = .next t) : Micro s .mainline t := by
  cases i with
  | cfg =>
    refine micro_of_oneStep hc (fun m hm _ h => ?_) h
    split at h
    · cases h; exact .raise m _ (by simp [FaultRecord.code])
    · cases h; exact .cfg m hb hm (by simpa using ‹¬s.cfg = true›)
  | enqb b =>
    refine micro_of_execEnqb hc hb (fun hs hp he => ?_) h
    obtain ⟨w, hw, hd⟩ := hb
    have hat : s.atEnqb = true := by simp [State.atEnqb, hw, hd, isEnqb]
    rcases hs with ⟨hm, hcfg⟩ | hm <;>
      simp_all [State.holds, State.atEnqbS1, State.isFull]
  | enqe =>
    exact micro_of_oneStep hc
      (fun m hm hcfg h => by cases h; exact .enqe m hb ⟨hm, by simpa using hcfg⟩) h
  | prime => exact micro_of_execPrime hc hb h
  | drain =>
    obtain ⟨hf, ⟨-, h⟩ | ⟨-, rfl⟩⟩ := issue_next h
    · rw [hc] at h; exact micro_of_drainMainline ⟨hf, hc⟩ hb h
    · exact .raise ⟨hf, hc⟩ _ (by simp [FaultRecord.code])
  | ien e =>
    exact micro_of_oneStep hc
      (fun m hm hcfg h => by cases h; exact .ien m e hb ⟨hm, by simpa using hcfg⟩) h
  | empty =>
    exact micro_of_oneStep hc
      (fun m hm hcfg h => by cases h; exact .empty m hb ⟨hm, by simpa using hcfg⟩) h
  | occ =>
    exact micro_of_oneStep hc
      (fun m hm hcfg h => by cases h; exact .occ m hb ⟨hm, by simpa using hcfg⟩) h
  | clrf =>
    obtain ⟨hf, ⟨hi, -⟩ | ⟨-, rfl⟩⟩ := issue_next h
    · rw [hc] at hi; cases hi
    · exact .raise ⟨hf, hc⟩ _ (by simp [FaultRecord.code])
  | iret =>
    obtain ⟨hf, ⟨hi, -⟩ | ⟨-, rfl⟩⟩ := issue_next h
    · rw [hc] at hi; cases hi
    · exact .raise ⟨hf, hc⟩ _ (by simp [FaultRecord.code])

/-! ### The agents -/

/-- A step of `MAINLINE`, where it does not hold, is one atomic step. -/
theorem micro_of_mainlineStep (m : s.Main) (hh : s.holds = false)
    (h : mainlineStep s = .next t) : Micro s .mainline t := by
  unfold mainlineStep at h
  split at h
  case h_2 => cases h
  case h_1 w hw =>
    unfold runWord at h
    split at h
    case h_1 i hd => exact micro_of_exec_mainline m.ctx ⟨w, hw, hd⟩ hh h
    case h_2 =>
      split at h
      case h_1 => cases h; exact .raise m _ (by simp [FaultRecord.code])
      all_goals cases h

/-- A step of `HANDLER` is one atomic step. -/
theorem micro_of_handlerStep (m : s.Hand) (h : handlerStep s = .next t) : Micro s .handler t := by
  unfold handlerStep at h
  cases hs : s.hstate with
  | drain d =>
    rw [hs] at h
    obtain ⟨-, ⟨-, h⟩ | ⟨hi, -⟩⟩ := issue_next h
    · rw [m.ctx] at h
      simp only [drainHandler, hs] at h
      obtain ⟨d', s', hp, rfl⟩ | ⟨hp, rfl⟩ | ⟨r, hp, rfl⟩ := runPass_next h
      · exact .handlerPass m d d' s' hs hp
      · exact .handlerExit m d hs hp
      · exact .handlerRaise m d r hs hp
    · rw [m.ctx] at hi; cases hi
  | clrf =>
    rw [hs] at h
    obtain ⟨-, ⟨-, h⟩ | ⟨hi, -⟩⟩ := issue_next h
    · simp only [hs] at h; cases h; exact .clrf m hs
    · rw [m.ctx] at hi; cases hi
  | iret =>
    rw [hs] at h
    obtain ⟨-, ⟨-, h⟩ | ⟨hi, -⟩⟩ := issue_next h
    · simp only [hs] at h; cases h; exact .iret m hs
    · rw [m.ctx] at hi; cases hi

theorem enabled_handler : s.enabled .handler = true ↔ s.Hand := by
  simp only [State.enabled, Bool.and_eq_true, Option.isNone_iff_eq_none, decide_eq_true_eq]
  exact ⟨fun h => ⟨h.1, h.2⟩, fun h => ⟨h.fault, h.ctx⟩⟩

theorem enabled_entry : s.enabled .entry = true ↔ s.Main ∧ s.irq = true := by
  simp only [State.enabled, State.entryEnabled, Bool.and_eq_true, Option.isNone_iff_eq_none,
    decide_eq_true_eq]
  exact ⟨fun h => ⟨⟨h.1.1, h.1.2⟩, h.2⟩, fun h => ⟨⟨h.1.fault, h.1.ctx⟩, h.2⟩⟩

theorem enabled_mainline :
    s.enabled .mainline = true ↔ s.Main ∧ s.pc < s.prog.length ∧ s.holds = false := by
  simp only [State.enabled, Bool.and_eq_true, Option.isNone_iff_eq_none, decide_eq_true_eq,
    Bool.not_eq_true']
  exact ⟨fun h => ⟨⟨h.1.1.1, h.1.1.2⟩, h.1.2, h.2⟩, fun h => ⟨⟨⟨h.1.fault, h.1.ctx⟩, h.2.1⟩, h.2.2⟩⟩

theorem enabled_line :
    s.enabled .line = true ↔
      s.fault = none ∧ s.txen = true ∧ s.txq ≠ [] ∧
        ¬(s.params.isrAtomic = true ∧ s.ctx = .interrupt) := by
  simp only [State.enabled, Bool.and_eq_true, Option.isNone_iff_eq_none,
    Bool.not_eq_true', List.isEmpty_eq_false_iff, Bool.and_eq_false_iff, decide_eq_false_iff_not,
    not_and_or, Bool.not_eq_true]
  exact ⟨fun h => ⟨h.1.1.1, h.1.1.2, h.1.2, h.2⟩, fun h => ⟨⟨⟨h.1, h.2.1⟩, h.2.2.1⟩, h.2.2.2⟩⟩

/-- Handler steps, one after the other. -/
abbrev HandlerSteps : State → State → Prop := Relation.ReflTransGen (Micro · .handler ·)

/-- What the step of a turn is made of: one atomic step of that agent; with `ISR_ATOMIC_WRT_LINE`, handler steps
follow entry or the handler's own step inside it (R105). -/
def TurnSteps (turn : Turn) (s t : State) : Prop :=
  match turn with
  | .mainline => Micro s .mainline t
  | .line => Micro s .line t
  | .handler =>
    ∃ u, Micro s .handler u ∧ HandlerSteps u t ∧ (s.params.isrAtomic = false → t = u)
  | .entry => ∃ u, Micro s .entry u ∧ HandlerSteps u t ∧ (s.params.isrAtomic = false → t = u)

theorem handlerSteps_of_runHandler (k : Nat) (h : runHandler k s = .next t) : HandlerSteps s t := by
  induction k generalizing s with
  | zero => cases h; exact .refl
  | succ k ih =>
    unfold runHandler at h
    split at h
    case isFalse => cases h; exact .refl
    case isTrue he =>
      split at h
      case h_1 s' hs => exact .head (micro_of_handlerStep (enabled_handler.mp he) hs) (ih h)
      all_goals cases h

/-- The step of an enabled turn is made of that turn's atomic steps. -/
theorem turnSteps_of_takeTurn {turn : Turn} (he : s.enabled turn = true)
    (h : takeTurn turn s = .next t) : TurnSteps turn s t := by
  cases turn with
  | handler =>
    have m := enabled_handler.mp he
    unfold takeTurn at h
    simp only at h
    split at h
    case isTrue ha =>
      unfold State.handlerFuel at h
      rw [show 4 * s.params.dTx + 8 = (4 * s.params.dTx + 7) + 1 by omega] at h
      unfold runHandler at h
      rw [if_pos he] at h
      split at h
      case h_1 s' hs =>
        exact ⟨s', micro_of_handlerStep m hs, handlerSteps_of_runHandler _ h, by simp [ha]⟩
      all_goals cases h
    case isFalse => exact ⟨t, micro_of_handlerStep m h, .refl, fun _ => rfl⟩
  | entry =>
    obtain ⟨m, hi⟩ := enabled_entry.mp he
    unfold takeTurn at h
    simp only at h
    split at h
    case isTrue ha => exact ⟨_, .entry m hi, handlerSteps_of_runHandler _ h, by simp [ha]⟩
    case isFalse => cases h; exact ⟨_, .entry m hi, .refl, fun _ => rfl⟩
  | mainline =>
    obtain ⟨m, -, hh⟩ := enabled_mainline.mp he
    exact micro_of_mainlineStep m hh h
  | line =>
    obtain ⟨hf, hx, hq, -⟩ := enabled_line.mp he
    obtain ⟨b, rest, hb⟩ := List.exists_cons_of_ne_nil hq
    unfold takeTurn at h
    simp only [lineStep_cons hb] at h
    cases h
    exact .line hf hx b rest hb

/-- A relation that is reflexive and transitive and holds across each atomic step of the agent (and, from entry
on, of the handler) holds across the step of a turn. -/
theorem turnSteps_rel {R : State → State → Prop} {turn : Turn} (refl : ∀ s, R s s)
    (trans : ∀ a b c, R a b → R b c → R a c) (micro : ∀ a b, Micro a turn b → R a b)
    (handler : turn = .entry → ∀ a b, Micro a .handler b → R a b) (h : TurnSteps turn s t) : R s t := by
  have run (hh : ∀ a b, Micro a .handler b → R a b) {a b : State} (hs : HandlerSteps a b) : R a b := by
    induction hs with
    | refl => exact refl _
    | tail _ h ih => exact trans _ _ _ ih (hh _ _ h)
  cases turn with
  | mainline => exact micro _ _ h
  | line => exact micro _ _ h
  | handler => obtain ⟨u, hu, hs, -⟩ := h; exact trans _ _ _ (micro _ _ hu) (run micro hs)
  | entry => obtain ⟨u, hu, hs, -⟩ := h; exact trans _ _ _ (micro _ _ hu) (run (handler rfl) hs)

/-! ### The command at `pc` -/

/-- There is a command at `pc` only inside the command stream (R26). -/
theorem State.Fetches.pc_lt {i : Instr} (h : s.Fetches i) : s.pc < s.prog.length := by
  obtain ⟨w, hw, -⟩ := h
  exact (List.getElem?_eq_some_iff.mp hw).1

theorem State.Fetches.unique {i j : Instr} (h : s.Fetches i) (h' : s.Fetches j) : i = j := by
  obtain ⟨w, hw, hd⟩ := h
  obtain ⟨w', hw', hd'⟩ := h'
  rw [hw] at hw'; cases hw'; rw [hd] at hd'; cases hd'; rfl

end Sys2Proof.Machine
end

