-- ==== Sys2Proof/Laws/PerInstr.lean ====
section
/-! SUPPORT. Statements about every command as syntax, one lemma per constructor. -/

namespace Sys2Proof.Laws.EncodedFields

/-- The fields of a command's word are its operation number, a zero `z` and its operand byte (R66, R74). -/
def Statement (i : Instr) : Prop :=
  opField (encode i) = i.opNumber ∧ zField (encode i) = 0#4 ∧ immField (encode i) = i.operandByte

theorem cfg : Statement .cfg := by unfold Statement; decide

theorem enqb (b : Byte) : Statement (.enqb b) := by
  unfold Statement opField zField immField encode Instr.opNumber Instr.operandByte
  refine ⟨?_, ?_, ?_⟩ <;> (revert b; decide)

theorem enqe : Statement .enqe := by unfold Statement; decide

theorem prime : Statement .prime := by unfold Statement; decide

theorem drain : Statement .drain := by unfold Statement; decide

theorem ien (e : Bool) : Statement (.ien e) := by unfold Statement; revert e; decide

theorem empty : Statement .empty := by unfold Statement; decide

theorem occ : Statement .occ := by unfold Statement; decide

theorem clrf : Statement .clrf := by unfold Statement; decide

theorem iret : Statement .iret := by unfold Statement; decide

end Sys2Proof.Laws.EncodedFields
end

