-- ==== Sys2Proof/Laws/Queue.lean ====
section
/-! SUPPORT. The queued bytes under the two cursors' moves, and what the invariant gives a drain pass. -/

namespace Sys2Proof.Machine

variable {s t : State}

/-- The queued bytes depend on the storage, the cursors and the capacity only. -/
theorem queued_congr (hw : t.wc = s.wc) (hr : t.rc = s.rc) (hp : t.params = s.params)
    (hm : t.storage = s.storage) : t.queued = s.queued := by
  unfold State.queued State.occ
  rw [hw, hr, hp, hm]

/-- Moving `rc` past a byte takes the oldest one off the queue. -/
theorem queued_pop {b : Byte} (hw : s.wc < s.params.capacity) (hr : s.rc < s.params.capacity)
    (hne : s.rc ≠ s.wc) (hb : Memory.read s.storage s.rc = some b) :
    s.queued = b :: State.queued { s with rc := s.next s.rc } := by
  have ho : s.occ = State.occ { s with rc := s.next s.rc } + 1 := (occupancy_next_right hw hr hne).symm
  unfold State.queued
  rw [ho, List.range_succ_eq_map, List.filterMap_cons]
  simp only [Nat.add_zero, Nat.mod_eq_of_lt hr, hb, List.filterMap_map]
  congr 1
  apply congrArg (fun f => List.filterMap f _)
  funext k
  show _ = Memory.read s.storage ((nextCursor s.params.capacity s.rc + k) % s.params.capacity)
  rw [slot_succ]
  rfl

/-- Moving `wc` past a written slot puts its byte at the queue's end. -/
theorem queued_publish {b : Byte} (hw : s.wc < s.params.capacity) (hr : s.rc < s.params.capacity)
    (hne : s.next s.wc ≠ s.rc) (hb : Memory.read s.storage s.wc = some b) :
    State.queued { s with wc := s.next s.wc } = s.queued ++ [b] := by
  have ho : State.occ { s with wc := s.next s.wc } = s.occ + 1 := occupancy_next_left hw hr hne
  have hs : (s.rc + s.occ) % s.params.capacity = s.wc := slot_occupancy hw hr
  unfold State.queued
  rw [ho, List.range_succ, List.filterMap_append]
  simp only [List.filterMap_cons, List.filterMap_nil, hs, hb]

/-- Reading the schedule disturbs no invariant. -/
theorem Inv.spend (I : Inv s) : Inv s.spend :=
  ⟨I.params_ok, I.wc_lt, I.rc_lt, I.written, I.txq_le, I.storage_wf, I.storage_lt, I.txen_cfg,
    I.unconfigured, I.trunc_nonblocking, I.pc_le, I.mainline, I.handler, I.fault_code⟩

/-- Where the buffer is not empty, slot `rc` is written. -/
theorem Inv.oldest (I : Inv s) (h : s.rc ≠ s.wc) : (Memory.read s.storage s.rc).isSome = true := by
  have ho := occupancy_next_right I.wc_lt I.rc_lt h
  have := I.written 0 (by unfold State.occ; omega)
  rwa [Nat.add_zero, Nat.mod_eq_of_lt I.rc_lt] at this

/-- A drain pass that knows what its label promises raises no fault (R107). -/
theorem Inv.pass_raises_nothing (I : Inv s) {d : DrainLabel} {r : FaultRecord} (hk : s.PassKnows d) :
    ¬PassRaises s d r := by
  intro h
  cases h with
  | unwritten hr hb => have := I.oldest hk.2; rw [hb] at this; cases this
  | notReady b hr hb h => have := hk.1; rw [h] at this; cases this

/-- In the mainline context the handler stands at its start. -/
theorem Inv.handler_start (I : Inv s) (m : s.Main) : s.hstate = .drain .s1 := by
  have h := I.handler
  unfold State.HandlerKnows at h
  rwa [m.ctx] at h

end Sys2Proof.Machine
end

