-- ==== Sys2Proof/Laws/Step.lean ====
section
/-! SUPPORT. What a step of the machine can do, said once: a refusal, a halt, a rest, or one enabled turn; and the
induction every invariant goes through. -/

namespace Sys2Proof.Machine

variable {s t : State}

/-! ### The schedule is used up and nothing else reads it -/

@[simp] theorem State.spend_enabled (turn : Turn) : s.spend.enabled turn = s.enabled turn := by
  cases turn <;> rfl

@[simp] theorem State.spend_fetch : s.spend.fetch = s.fetch := rfl

@[simp] theorem State.spend_occ : s.spend.occ = s.occ := rfl

theorem State.mem_enabledTurns (turn : Turn) : turn ∈ s.enabledTurns ↔ s.enabled turn = true := by
  unfold State.enabledTurns
  rw [List.mem_filter]
  cases turn <;> simp

/-- The turn taken is enabled. -/
theorem State.chosenTurn_enabled {turn : Turn} (h : s.chosenTurn = some turn) :
    s.enabled turn = true := by
  unfold State.chosenTurn at h
  rw [← State.mem_enabledTurns]
  split at h
  case h_1 => cases h
  case h_2 t ht => cases h; rw [ht]; exact List.mem_cons_self
  case h_3 t u ts ht =>
    rw [ht]
    split at h
    case isTrue hm => cases h; exact hm
    case isFalse => cases h; exact List.mem_cons_self

/-- No turn is taken exactly in a quiescent state (R153). -/
theorem State.chosenTurn_none : s.chosenTurn = none ↔ s.Quiescent := by
  unfold State.chosenTurn State.Quiescent
  split
  case h_1 h => simp [h]
  case h_2 h => simp [h]
  case h_3 h => simp only [h, reduceCtorEq, iff_false]; split <;> simp

/-- The only enabled turn is taken, whatever the schedule names. -/
theorem State.chosenTurn_single {turn : Turn} (h : s.enabledTurns = [turn]) :
    s.chosenTurn = some turn := by
  unfold State.chosenTurn; rw [h]

/-- An enabled turn that the schedule names is taken. -/
theorem State.chosenTurn_named {turn : Turn} {rest : List Turn} (hs : s.sched = turn :: rest)
    (he : s.enabled turn = true) : s.chosenTurn = some turn := by
  have hm := (State.mem_enabledTurns (s := s) turn).mpr he
  unfold State.chosenTurn
  have hn : s.namedTurn = turn := by unfold State.namedTurn; rw [hs]
  split
  case h_1 h => rw [h] at hm; cases hm
  case h_2 t h => rw [h, List.mem_singleton] at hm; rw [hm]
  case h_3 h => rw [h] at hm; rw [hn, if_pos hm]

/-! ### The step -/

theorem step_refused {p : ParamName} (h : s.params.check = some p) :
    step s = .refused (.refusedConfig p) := by
  unfold step configured; rw [h]

theorem step_halted {r : FaultRecord} (hp : s.params.check = none) (h : s.fault = some r) :
    step s = .fault (.halted r) := by
  unfold step configured agentStep; rw [hp, h]

theorem step_turn {turn : Turn} (hp : s.params.check = none) (hf : s.fault = none)
    (h : s.chosenTurn = some turn) : step s = takeTurn turn s.spend := by
  unfold step configured agentStep; rw [hp, hf, h]

theorem step_final (hp : s.params.check = none) (hf : s.fault = none) (h : s.Final) :
    step s = .next s := by
  unfold step configured agentStep
  rw [hp, hf, State.chosenTurn_none.mpr h.1]
  simp [h.2]

theorem step_stuck (hp : s.params.check = none) (hf : s.fault = none) (h : s.Stuck) :
    step s = .fault .stuck := by
  unfold step configured agentStep
  rw [hp, hf, State.chosenTurn_none.mpr h.1]
  simp [h.2]

/-- Everything a step can answer as a next state: one enabled turn's step, or the rest of a final state. -/
theorem step_next (h : step s = .next t) :
    s.params.check = none ∧ s.fault = none ∧
      ((∃ turn, s.chosenTurn = some turn ∧ takeTurn turn s.spend = .next t) ∨ (s.Final ∧ t = s)) := by
  cases hp : s.params.check with
  | some p => rw [step_refused hp] at h; cases h
  | none =>
    cases hf : s.fault with
    | some r => rw [step_halted hp hf] at h; cases h
    | none =>
      refine ⟨rfl, rfl, ?_⟩
      cases hc : s.chosenTurn with
      | some turn => exact .inl ⟨turn, rfl, by rwa [step_turn hp hf hc] at h⟩
      | none =>
        have hq := State.chosenTurn_none.mp hc
        cases he : s.atEnd with
        | true => rw [step_final hp hf ⟨hq, he⟩] at h; cases h; exact .inr ⟨⟨hq, he⟩, rfl⟩
        | false => rw [step_stuck hp hf ⟨hq, he⟩] at h; cases h

/-- A step is the step of the turn taken, on the state with the schedule used up, or the rest of a final state. -/
theorem turnSteps_of_step (h : step s = .next t) :
    (∃ turn, s.chosenTurn = some turn ∧ TurnSteps turn s.spend t) ∨ (s.Final ∧ t = s) := by
  obtain ⟨-, -, ⟨turn, hc, ht⟩ | h⟩ := step_next h
  · exact .inl ⟨turn, hc, turnSteps_of_takeTurn (by simpa using State.chosenTurn_enabled hc) ht⟩
  · exact .inr h

/-- A relation that holds from a state to itself with the schedule used up, across each atomic step, and
transitively, holds across a step. -/
theorem step_rel {R : State → State → Prop} (refl : ∀ s, R s s) (spend : ∀ s, R s s.spend)
    (trans : ∀ a b c, R a b → R b c → R a c) (micro : ∀ turn a b, Micro a turn b → R a b)
    (h : step s = .next t) : R s t := by
  obtain ⟨turn, -, ht⟩ | ⟨-, rfl⟩ := turnSteps_of_step h
  · exact trans _ _ _ (spend s)
      (turnSteps_rel refl trans (micro turn) (fun _ => micro .handler) ht)
  · exact refl _

/-- A property that no reading of the schedule disturbs and every atomic step keeps is kept by a step. -/
theorem step_keeps {P : State → Prop} (spend : ∀ s, P s → P s.spend)
    (micro : ∀ turn a b, P a → Micro a turn b → P b) (hs : P s) (h : step s = .next t) : P t :=
  step_rel (R := fun a b => P a → P b) (fun _ => id) spend (fun _ _ _ h g => g ∘ h)
    (fun turn a b hm ha => micro turn a b ha hm) h hs

end Sys2Proof.Machine
end

