-- ==== Sys2Proof/Tests/Slice0.lean ====
section
/-! SUPPORT. Tests with expected results from the spec (95_test_vectors.md unless a rule is named), and a witness for
the hypotheses of every statement that has some. -/

namespace Sys2Proof.Tests

open Sys2Proof Sys2Proof.Machine

/-! ### Helpers -/

/-- The next state of an outcome. -/
def answered {α : Type} : Host.Outcome α Fault Refusal → Option α
  | .next t => some t
  | .fault _ => none
  | .refused _ => none

/-- The fault of an outcome. -/
def stopped {α : Type} : Host.Outcome α Fault Refusal → Option Fault
  | .next _ => none
  | .fault f => some f
  | .refused _ => none

/-- The refusal of an outcome. -/
def refusedAs {α : Type} : Host.Outcome α Fault Refusal → Option Refusal
  | .next _ => none
  | .fault _ => none
  | .refused r => some r

/-- The instruction of a decoding. -/
def decoded (w : Word) : Option Instr := (decode w).toOption

/-- The vectors' parameters: `C = 8`, the rest the defaults. -/
def p8 : Params := { Params.default with capacity := 8 }

/-- "After `CFG`": configured, nothing queued, one word to run and the mainline's turn. -/
def ready (w : Word) : State :=
  { State.launch p8 [w] [.mainline] with cfg := true, ie := true, txen := true }

/-- Slots `0, 1, 2, …` written with these bytes. -/
def slots (bs : List Byte) : Memory := (List.range bs.length).zip bs

/-- In the handler, at a position, with what its drain pass takes. -/
def inHandler (h : HState) : State :=
  { ready 0x3000#16 with ctx := .interrupt, hstate := h, tc := true, sched := [.handler] }

/-! ### WellFormed: every check refuses its ill-formed term (R131, R148) -/

theorem test_wf_default : Params.default.check = none := by decide
theorem test_wf_c_too_small : ({ p8 with capacity := 1 }).check = some .capacity := by decide
theorem test_wf_c_too_large : ({ p8 with capacity := 65537 }).check = some .capacity := by decide
theorem test_wf_w_too_large : ({ p8 with cursorWidth := 17 }).check = some .cursorWidth := by decide
theorem test_wf_w_too_small : ({ p8 with cursorWidth := 2 }).check = some .cursorWidth := by decide
theorem test_wf_d_tx_zero : ({ p8 with dTx := 0 }).check = some .dTx := by decide
theorem test_wf_context :
    (Instr.clrf.issuableIn .mainline || Instr.iret.issuableIn .mainline ||
      (Instr.enqb 0x41#8).issuableIn .interrupt || Instr.cfg.issuableIn .interrupt ||
      Instr.enqe.issuableIn .interrupt || Instr.prime.issuableIn .interrupt ||
      (Instr.ien true).issuableIn .interrupt || Instr.empty.issuableIn .interrupt ||
      Instr.occ.issuableIn .interrupt) = false := by decide

/-! ### Decoding: words written out bit by bit from 30_encoding.md, `op z imm8` -/

theorem test_decode_cfg : decoded 0b0001000000000000#16 = some .cfg := by decide
theorem test_decode_enqb : decoded 0b0010000001000001#16 = some (.enqb 0b01000001#8) := by decide
theorem test_decode_enqb_ff : decoded 0b0010000011111111#16 = some (.enqb 0xFF#8) := by decide
theorem test_decode_enqe : decoded 0b0011000000000000#16 = some .enqe := by decide
theorem test_decode_prime : decoded 0b0100000000000000#16 = some .prime := by decide
theorem test_decode_drain : decoded 0b0101000000000000#16 = some .drain := by decide
theorem test_decode_ien0 : decoded 0b0110000000000000#16 = some (.ien false) := by decide
theorem test_decode_ien1 : decoded 0b0110000000000001#16 = some (.ien true) := by decide
theorem test_decode_empty : decoded 0b0111000000000000#16 = some .empty := by decide
theorem test_decode_occ : decoded 0b1000000000000000#16 = some .occ := by decide
theorem test_decode_clrf : decoded 0b1001000000000000#16 = some .clrf := by decide
theorem test_decode_iret : decoded 0b1010000000000000#16 = some .iret := by decide
/-- 2.1's illegal words. -/
theorem test_decode_illegal :
    [0x0000#16, 0x1001#16, 0x1100#16, 0x2141#16, 0x3001#16, 0x6002#16, 0x6081#16, 0x8010#16, 0xA001#16,
      0xB000#16, 0xC000#16, 0xD000#16, 0xE000#16, 0xF000#16, 0xFFFF#16].map decoded =
      List.replicate 15 none := by decide
theorem test_decode_reasons :
    decode 0x0000#16 = .error .noOperation ∧ decode 0x2141#16 = .error .reservedZ ∧
      decode 0x6081#16 = .error .reservedImm := by decide
theorem test_decode_table_word :
    decodeTableWord 16 0x2041 = some (.enqb 0x41#8) ∧ decodeTableWord 16 0x0000 = none ∧
      decodeTableWord 32 0x2041 = none := by decide

/-! ### The assembler (R74 to R77) -/

theorem test_asm_byte_forms :
    assembleLine [' ', 'E', 'N', 'Q', 'B', ' ', '\'', 'A', '\'', ' ', ';', 'x'] = some [.enqb 0x41#8] ∧
    assembleLine ['E', 'N', 'Q', 'B', ' ', '0', 'x', '4', '1'] = some [.enqb 0x41#8] ∧
    assembleLine ['E', 'N', 'Q', 'B', ' ', '6', '5'] = some [.enqb 0x41#8] ∧
    assembleLine ['E', 'N', 'Q', 'B', ' ', '2', '5', '6'] = none := by decide
/-- R76: `WRITE "Hi"` is P1's words 1 to 4. -/
theorem test_asm_write :
    assemble [['C', 'F', 'G'], ['W', 'R', 'I', 'T', 'E', ' ', '"', 'H', 'i', '"']] =
      some [0x1000#16, 0x2048#16, 0x2069#16, 0x3000#16, 0x4000#16] := by decide

/-! ### Cursor arithmetic (2.3) -/

theorem test_next :
    nextCursor 8 3 = 4 ∧ nextCursor 8 7 = 0 ∧ nextCursor 200 199 = 0 ∧ nextCursor 5 4 = 0 := by decide
theorem test_occ :
    occupancy 8 5 5 = 0 ∧ occupancy 8 1 3 = 6 ∧ occupancy 8 0 1 = 7 ∧ occupancy 200 1 3 = 198 ∧
      occupancy 5 0 1 = 4 ∧ occupancy 2 1 0 = 1 := by decide

/-! ### The storage: unwritten, overwritten, canonical -/

theorem test_storage_order :
    Memory.write (Memory.write [] 3 0x41#8) 1 0x42#8 = [(1, 0x42#8), (3, 0x41#8)] ∧
      Memory.write [(1, 0x42#8)] 1 0x43#8 = [(1, 0x43#8)] := by decide
theorem test_storage_wf : Memory.wf [(3, 0x41#8), (1, 0x42#8)] = false := by decide

/-! ### Producer (2.4 to 2.7, 2.9) -/

/-- CF-1. -/
theorem test_cfg :
    answered (exec .cfg (State.launch p8 [0x1000#16] [])) =
      some { State.launch p8 [0x1000#16] [] with cfg := true, ie := true, txen := true, pc := 1 } := by
  decide
/-- EQ-2: the byte goes to the last slot and `wc` wraps. -/
theorem test_enqb_wraps :
    answered (runCommand (.enqb 0x42#8) 4 { ready 0x2042#16 with wc := 7, rc := 3 }) =
      some { ready 0x2042#16 with wc := 0, rc := 3, storage := [(7, 0x42#8)], hist := [.enq 0x42#8],
                                  pc := 1 } := by decide
/-- EQ-7: S2 tests the snapshot `r = 3`, although `rc` has moved to 4. -/
theorem test_enqb_stale_snapshot :
    answered (exec (.enqb 0x47#8) { ready 0x2047#16 with wc := 2, rc := 4, mstate := .enqbS2 3 3 }) =
      some { ready 0x2047#16 with wc := 2, rc := 4, trunc := true, hist := [.drop 0x47#8], pc := 1 } := by
  decide
/-- EQ-4: with `trunc` set the byte is dropped although there is room. -/
theorem test_enqb_truncated :
    answered (exec (.enqb 0x44#8) { ready 0x2044#16 with wc := 2, rc := 6, trunc := true }) =
      some { ready 0x2044#16 with wc := 2, rc := 6, trunc := true, hist := [.drop 0x44#8], pc := 1 } := by
  decide
/-- EQ-6 as one call (R85), with `ENQE`: of two bytes the first is stored, with `C = 2`. -/
theorem test_enqueue_call :
    (answered (runCommands (enqueueCall [0x45#8, 0x46#8])
      { ready 0x2045#16 with params := { p8 with capacity := 2 } })).map
      (fun t => (t.queued, t.hist, t.trunc, t.pc)) =
      some ([0x45#8], [.enq 0x45#8, .drop 0x46#8], false, 3) := by decide
/-- EE-1. -/
theorem test_enqe :
    answered (exec .enqe { ready 0x3000#16 with trunc := true }) =
      some { ready 0x3000#16 with pc := 1 } := by decide
/-- IE-2: the pending flag is enterable at once. -/
theorem test_ien_unmasks :
    (answered (exec (.ien true) { ready 0x6001#16 with ie := false, tc := true })).map
      (fun t => (t.ie, t.enabled .entry)) = some (true, true) := by decide
/-- EM-2. -/
theorem test_empty_no :
    (answered (exec .empty { ready 0x7000#16 with wc := 6, rc := 5 })).map (·.rsp) =
      some (some 0x0000#16) := by decide
/-- EM-3: a byte in the peripheral does not count. -/
theorem test_empty_not_idle :
    (answered (exec .empty { ready 0x7000#16 with wc := 3, rc := 3, txq := [0x71#8] })).map (·.rsp) =
      some (some 0x0001#16) := by decide
/-- OC-3. -/
theorem test_occ_200 :
    (answered (exec .occ { ready 0x8000#16 with params := .default, wc := 1, rc := 3 })).map (·.rsp) =
      some (some 0x00C6#16) := by decide
/-- OC-4. -/
theorem test_rsp_unwritten : stopped (readRsp State.reset) = some .rspUnwritten := by decide

/-! ### Drainer (2.8, 2.10) -/

/-- PR-4. -/
theorem test_prime_greedy :
    (answered (runCommand .prime 16
      { ready 0x4000#16 with params := { p8 with dTx := 4 }, wc := 3,
                             storage := slots [0x41#8, 0x42#8, 0x43#8] })).map
      (fun t => (t.txq, t.rc, t.ie, t.pc)) = some ([0x41#8, 0x42#8, 0x43#8], 3, true, 1) := by decide
/-- PR-3: `PRIME` leaves `ie = 1`, it does not restore 0. -/
theorem test_prime_enables :
    (answered (runCommand .prime 8 { ready 0x4000#16 with ie := false })).map
      (fun t => (t.txq, t.rc, t.ie, t.pc)) = some ([], 0, true, 1) := by decide
/-- DR-3. -/
theorem test_drain_wraps :
    (answered (runCommand .drain 16
      { ready 0x5000#16 with params := { p8 with dTx := 2 }, ie := false, wc := 0, rc := 7,
                             storage := [(7, 0x58#8)] })).map
      (fun t => (t.txq, t.rc, t.ie, t.pc)) = some ([0x58#8], 0, false, 1) := by decide
/-- DR-1. -/
theorem test_drain_race :
    (answered (exec .drain (ready 0x5000#16))).map (·.fault) = some (some (.drainRace 0)) := by decide
/-- HD-2: two bytes, then `CLRF` and `IRET`; the mainline's position is kept. -/
theorem test_handler :
    (answered (runHandler 16
      { inHandler (.drain .s1) with params := { p8 with dTx := 2 }, wc := 3,
                                    storage := slots [0x41#8, 0x42#8, 0x43#8],
                                    mstate := .enqbS4 (some 0) 4 })).map
      (fun t => (t.txq, t.rc, t.tc, t.ctx)) = some ([0x41#8, 0x42#8], 2, false, .mainline) := by decide
/-- HD-5: a `tc` set between `CLRF` and `IRET` is enterable again. -/
theorem test_iret_pending :
    (answered (exec .iret (inHandler .iret))).map (fun t => (t.ctx, t.hstate, t.enabled .entry)) =
      some (.mainline, .drain .s1, true) := by decide
/-- R103. -/
theorem test_clrf :
    (answered (exec .clrf (inHandler .clrf))).map (fun t => (t.tc, t.hist, t.hstate)) =
      some (false, [.tcClr], .iret) := by decide
/-- HD-6: HD-2's end state in one step. -/
theorem test_handler_atomic :
    (answered (step { ready 0x3000#16 with
        params := { p8 with dTx := 2, isrAtomic := true }, wc := 3, tc := true, sched := [.entry],
        storage := slots [0x41#8, 0x42#8, 0x43#8] })).map
      (fun t => (t.txq, t.rc, t.tc, t.ctx)) = some ([0x41#8, 0x42#8], 2, false, .mainline) := by decide

/-! ### Peripheral (2.11) -/

/-- PE-6, PE-7, PE-8. -/
theorem test_line :
    (lineStep { ready 0x3000#16 with txq := [0x41#8, 0x42#8] }).tc = true ∧
    (lineStep { ready 0x3000#16 with params := { p8 with tcPolicy := .onIdle },
                                     txq := [0x41#8, 0x42#8] }).tc = false ∧
    (lineStep { ready 0x3000#16 with params := { p8 with tcPolicy := .onIdle },
                                     txq := [0x42#8] }).tc = true := by decide
/-- PE-3, PE-5. -/
theorem test_not_ready :
    State.reset.ready = false ∧
      (push { ready 0x3000#16 with txq := [0x41#8] } 0x42#8).toOption = none := by decide

/-! ### Fault order (2.2), holds and stuck states (2.6), one step of the machine -/

theorem test_fault_order :
    [0x0000#16, 0x9000#16, 0x2041#16, 0x5000#16].map
      (fun w => (answered (step (State.launch p8 [w] []))).map (·.fault)) =
      [some (some (.illegal 0 0x0000#16)), some (some (.context 0 0x9000#16)),
       some (some (.notConfigured 0 0x2041#16)), some (some (.notConfigured 0 0x5000#16))] := by decide
/-- A fault stops every agent (R130). -/
theorem test_halted :
    stopped (step { ready 0x3000#16 with fault := some (.reconfigure 1), txq := [0x41#8] }) =
      some (.halted (.reconfigure 1)) := by decide
/-- EB-3: full, idle, nothing pending. -/
def held : State :=
  { ready 0x2044#16 with params := { p8 with capacity := 4, enqPolicy := .blocking }, wc := 3,
                         storage := slots [0x41#8, 0x42#8, 0x43#8],
                         hist := [.enq 0x41#8, .enq 0x42#8, .enq 0x43#8] }
theorem test_stuck : stopped (step held) = some .stuck := by decide
/-- EB-2: with a byte in the peripheral, `LINE` steps while the mainline holds. -/
theorem test_hold_line :
    (answered (step { held with txq := [0x78#8] })).map (fun t => (t.lineOut, t.tc, t.pc)) =
      some ([0x78#8], true, 0) := by decide
/-- CF-3: the reset state with no program is final. -/
theorem test_reset_final : answered (step State.reset) = some State.reset := by decide
/-- The host's view: a placed word is fetched and run by the next step. -/
theorem test_with_fetch_word :
    (answered (step (State.reset.withFetchWord 16 0x1000))).map (fun t => (t.cfg, t.pc)) =
      some (true, 1) := by decide
theorem test_core_reset : Sys2Proof.core.reset = State.reset := rfl

/-! ### Witnesses for the statements' hypotheses -/

/-- The launch predicate holds of a launched state. -/
theorem test_witness_launch : Launch p8 [0x1000#16] [] (State.launch p8 [0x1000#16] []) :=
  ⟨by decide, rfl⟩

/-- Two bytes enqueued, the first one pushed by a `PRIME` that stands at S4 of its pass. -/
def primingS4 : State :=
  { ready 0x4000#16 with
      storage := slots [0x48#8, 0x69#8], wc := 2, ie := false, mstate := .primeP2 (.s4 0x48#8),
      txq := [0x48#8], hist := [.enq 0x48#8, .enq 0x69#8, .push 0x48#8] }

theorem fetches_ready (w : Word) (i : Instr) (h : decode w = .ok i) : (ready w).Fetches i :=
  ⟨w, rfl, h⟩

/-- StepKeepsInv, StepKeepsFifoOrder, EveryStepLowersTheBound: a state in the middle of a pass. -/
theorem test_witness_inv : Inv primingS4 where
  params_ok := by decide
  wc_lt := by decide
  rc_lt := by decide
  written := by decide
  txq_le := by decide
  storage_wf := by decide
  storage_lt := by decide
  txen_cfg := by decide
  unconfigured := by decide
  trunc_nonblocking := by decide
  pc_le := by decide
  mainline := ⟨rfl, ⟨_, rfl, rfl⟩, rfl, by decide, rfl⟩
  handler := rfl
  fault_code := fun _ h => nomatch h
theorem test_witness_fifo : Fifo primingS4 where
  enqueued := by decide
  pushed := by decide
  sent := by decide
theorem test_witness_inv_step : (answered (step primingS4)).map (·.rc) = some 1 := by decide

/-- An idle, configured state meets the invariant if its plain checks do. -/
theorem inv_of_idle {s : State}
    (h : s.params.check = none ∧ s.wc < s.params.capacity ∧ s.rc < s.params.capacity ∧
      s.txq.length ≤ s.params.dTx ∧ Memory.wf s.storage = true ∧ s.txen = true ∧ s.cfg = true ∧
      s.trunc = false ∧ s.fault = none ∧ s.mstate = .idle)
    (hw : ∀ k, k < s.occ → (Memory.read s.storage ((s.rc + k) % s.params.capacity)).isSome = true)
    (hs : ∀ c ∈ s.storage, c.1 < s.params.capacity) (hp : s.pc ≤ s.prog.length)
    (hh : s.HandlerKnows) : Inv s := by
  obtain ⟨h1, h2, h3, h4, h5, h6, h7, h8, h9, h10⟩ := h
  refine ⟨h1, h2, h3, hw, h4, h5, hs, by rw [h6, h7], ?_, ?_, hp, ?_, hh, ?_⟩
  · intro h; rw [h7] at h; cases h
  · intro h; rw [h8] at h; cases h
  · unfold State.MainlineKnows; rw [h10]; trivial
  · intro r h; rw [h9] at h; cases h

/-- OnlyTheBlockingHoldSticks: the held state, and one that steps. -/
theorem test_witness_held : Inv held ∧ held.fault = none ∧ Fifo held :=
  ⟨inv_of_idle (by decide) (by decide) (by decide) (by decide) rfl, rfl,
    ⟨by decide, by decide, by decide⟩⟩

/-- A finished program with a byte stranded in the buffer (P4). -/
def stranded : State :=
  { ready 0x4000#16 with pc := 1, storage := slots [0x41#8, 0x42#8, 0x43#8], wc := 3, rc := 2,
                         lineOut := [0x41#8, 0x42#8],
                         hist := [.enq 0x41#8, .enq 0x42#8, .enq 0x43#8, .push 0x41#8, .tx 0x41#8,
                                  .push 0x42#8, .tx 0x42#8] }
/-- FinalStateAccountsForEveryByte. -/
theorem test_witness_final : Inv stranded ∧ Fifo stranded ∧ stranded.Final :=
  ⟨inv_of_idle (by decide) (by decide) (by decide) (by decide) rfl,
    ⟨by decide, by decide, by decide⟩, by unfold State.Final State.Quiescent; decide⟩

/-- Some state meets every "who writes what" statement's premise, clause by clause: `CFG` changes `cfg` and `ie`,
S3 the storage, S4 `wc`, S2 and `ENQE` `trunc`, `EMPTY` `rsp`, a pass's S4 `rc`. -/
theorem test_witness_writes :
    (answered (step (State.launch p8 [0x1000#16] []))).map (fun t => (t.pc, t.cfg, t.txen, t.ie)) =
      some (1, true, true, true) ∧
    (answered (step { ready 0x2041#16 with mstate := .enqbS3 (some 0) 1 })).map (·.storage) =
      some [(0, 0x41#8)] ∧
    (answered (step { ready 0x2041#16 with mstate := .enqbS4 (some 0) 1 })).map (·.wc) = some 1 ∧
    (answered (step { ready 0x2041#16 with wc := 7, mstate := .enqbS2 0 0 })).map (·.trunc) = some true ∧
    (answered (step { ready 0x3000#16 with trunc := true })).map (·.trunc) = some false ∧
    (answered (step (ready 0x6000#16))).map (·.ie) = some false ∧
    (answered (step (ready 0x4000#16))).map (·.ie) = some false ∧
    (answered (step (ready 0x7000#16))).map (·.rsp) = some (some 1#16) ∧
    (answered (step { inHandler (.drain (.s4 0x41#8)) with wc := 1 })).map (·.rc) = some 1 := by decide
/-- TcIsSetByLineAndClearedByHandler and OtherTurnsLeaveTheMainlineInPlace: `LINE` sets, the handler clears, a masked flag
stays. -/
theorem test_witness_tc :
    (answered (step { ready 0x3000#16 with txq := [0x41#8], sched := [.line] })).map (·.tc) = some true ∧
    (answered (step (inHandler .clrf))).map (·.tc) = some false ∧
    (answered (step { ready 0x3000#16 with ie := false, tc := true })).map (·.tc) = some true ∧
    ({ ready 0x3000#16 with txq := [0x41#8], sched := [.line] }).chosenTurn = some .line := by decide
/-- StepRunsTheDecodedCommand, EveryEnabledTurnCanBeTaken, LineSendsTheOldestByte: each turn is the chosen one somewhere. -/
theorem test_witness_turns :
    (ready 0x3000#16).chosenTurn = some .mainline ∧ (ready 0x3000#16).fetch = some 0x3000#16 ∧
    (ready 0x3001#16).chosenTurn = some .mainline ∧ (ready 0x3001#16).mstate = .idle ∧
    decoded 0x3001#16 = none ∧
    (inHandler .clrf).chosenTurn = some .handler ∧
    ({ ready 0x3000#16 with tc := true, sched := [.entry] }).chosenTurn = some .entry ∧
    ({ ready 0x3000#16 with tc := true }).enabled .entry = true ∧
    (ready 0x3000#16).params.check = none ∧ (ready 0x3000#16).fault = none := by decide
/-- PlacedWordRunsNext. -/
theorem test_witness_place : (State.reset.placeNext 0x1000#16).holds = false := by decide
/-- FaultsAreRaisedInOrder, CfgConfigures, DrainPassFaults, HandlerMayIssueOnlyItsCommands, AFaultStopsEveryAgent. -/
theorem test_witness_faults :
    State.reset.InMainline .idle ∧ State.reset.cfg = false ∧
    (ready 0x5000#16).InMainline .idle ∧ (ready 0x5000#16).cfg = true ∧ (ready 0x5000#16).ie = true ∧
    (inHandler (.drain .s3)).InHandler (.drain .s3) ∧
    Memory.read (inHandler (.drain .s3)).storage 0 = none ∧
    State.ready { inHandler (.drain .s3) with txq := [0x41#8], storage := [(0, 0x42#8)] } = false ∧
    State.InHandler { inHandler (.drain .s3) with txq := [0x41#8], storage := [(0, 0x42#8)] } (.drain .s3) := by
  unfold State.InMainline State.InHandler; decide
/-- A command begins: EnqeAndIenWriteTheirBit, QueriesAnswerExactly, EmptyAndFullByOccupancy, EnqbNonblockingSteps,
EnqbAloneStoresOrDrops, PrimeDisablesThenEnables, MainlineDrainSteps. -/
theorem test_witness_command (w : Word) :
    (ready w).AtCommand ∧ (ready w).params.check = none ∧ (ready w).wc < (ready w).params.capacity ∧
    (ready w).rc < (ready w).params.capacity ∧ (ready w).params.enqPolicy = .nonblocking ∧
    (ready w).trunc = false ∧ (ready w).ready = true :=
  ⟨⟨⟨rfl, rfl, rfl⟩, rfl⟩, rfl, (by decide : 0 < 8), (by decide : 0 < 8), rfl, rfl, rfl⟩
/-- The micro-states of EnqbNonblockingSteps, EnqbWritesThenPublishes, PrimePassSteps and MainlineDrainSteps, each clause. -/
theorem test_witness_micro (w : Word) (m : MState) :
    State.InMainline { ready w with mstate := m } m ∧
    State.InMainline { ready w with mstate := m, wc := 1, storage := [(0, 0x41#8)] } m ∧
    State.ready { ready w with mstate := m, wc := 1, storage := [(0, 0x41#8)] } = true ∧
    State.ready { ready w with mstate := m, txq := [0x41#8] } = false ∧
    State.InMainline { ready w with mstate := m, txq := [0x41#8] } m :=
  ⟨⟨rfl, rfl, rfl⟩, ⟨rfl, rfl, rfl⟩, rfl, rfl, ⟨rfl, rfl, rfl⟩⟩
/-- DrainPassFaults in `PRIME` and a mainline `DRAIN`, and MainlineDrainSteps' first step with the peripheral full. -/
theorem test_witness_full_peripheral (w : Word) (m : MState) :
    State.InMainline { ready w with mstate := m, txq := [0x41#8], storage := [(0, 0x42#8)] } m ∧
    State.ready { ready w with mstate := m, txq := [0x41#8], storage := [(0, 0x42#8)] } = false ∧
    Memory.read [(0, 0x42#8)] 0 = some 0x42#8 ∧
    State.AtCommand { ready w with ie := false, txq := [0x41#8] } ∧
    State.ready { ready w with ie := false, txq := [0x41#8] } = false :=
  ⟨⟨rfl, rfl, rfl⟩, rfl, rfl, ⟨⟨rfl, rfl, rfl⟩, rfl⟩, rfl⟩
/-- EnqbNonblockingSteps and EnqbAloneStoresOrDrops: `trunc` set, and full. -/
theorem test_witness_truncated :
    State.AtCommand { ready 0x2041#16 with trunc := true } ∧
    State.AtCommand { ready 0x2041#16 with wc := 7 } ∧ nextCursor 8 7 = 0 :=
  ⟨⟨⟨rfl, rfl, rfl⟩, rfl⟩, ⟨⟨rfl, rfl, rfl⟩, rfl⟩, rfl⟩
/-- EnqbBlockingFirstStep: with room, and holding. -/
theorem test_witness_blocking :
    held.AtCommand ∧ held.params.enqPolicy = .blocking ∧ nextCursor 4 3 = 0 ∧ held.Fetches (.enqb 0x44#8) ∧
    State.AtCommand { held with wc := 1 } ∧ nextCursor 4 1 ≠ 0 :=
  ⟨⟨⟨rfl, rfl, rfl⟩, rfl⟩, rfl, rfl, ⟨_, rfl, rfl⟩, ⟨⟨rfl, rfl, rfl⟩, rfl⟩, by decide⟩
/-- HandlerDrainSteps, ClrfClearsAndIretReturns: every position of the handler, with and without something to push. -/
theorem test_witness_handler (h : HState) :
    (inHandler h).InHandler h ∧
    State.InHandler { inHandler h with wc := 1, storage := [(0, 0x41#8)] } h ∧
    State.ready { inHandler h with wc := 1, storage := [(0, 0x41#8)] } = true ∧
    State.InHandler { inHandler h with txq := [0x41#8] } h ∧
    State.ready { inHandler h with txq := [0x41#8] } = false :=
  ⟨⟨rfl, rfl, rfl⟩, ⟨rfl, rfl, rfl⟩, rfl, ⟨rfl, rfl, rfl⟩, rfl⟩

/-- NoUnreadByteIsOverwritten: `ENQB` at S2 and at S3 with a byte queued. -/
def storing (m : MState) : State :=
  { ready 0x2042#16 with storage := slots [0x41#8], wc := 1, mstate := m, hist := [.enq 0x41#8] }
theorem inv_storing (m : MState) (h : (storing m).MainlineKnows) : Inv (storing m) where
  params_ok := rfl
  wc_lt := (by decide : 1 < 8)
  rc_lt := (by decide : 0 < 8)
  written := (by decide : ∀ k, k < occupancy 8 1 0 → (Memory.read [(0, 0x41#8)] ((0 + k) % 8)).isSome = true)
  txq_le := (by decide : 0 ≤ 1)
  storage_wf := rfl
  storage_lt := (by decide : ∀ c ∈ slots [0x41#8], c.1 < 8)
  txen_cfg := rfl
  unconfigured := fun h => nomatch h
  trunc_nonblocking := fun h => nomatch h
  pc_le := (by decide : 0 ≤ 1)
  mainline := h
  handler := rfl
  fault_code := fun _ h => nomatch h
theorem test_witness_storing : Inv (storing (.enqbS2 0 2)) ∧ Inv (storing (.enqbS3 (some 0) 2)) :=
  ⟨inv_storing _ ⟨⟨0x42#8, rfl, ⟨_, rfl, rfl⟩, by decide, rfl⟩, rfl, by decide, by decide⟩,
    inv_storing _ ⟨⟨0x42#8, rfl, ⟨_, rfl, rfl⟩, by decide, rfl⟩, by decide, by decide⟩⟩

/-- PrimeAloneDrainsGreedily, DrainAloneDrainsGreedily: three bytes queued, room for two. -/
def queuedThree (w : Word) : State :=
  { ready w with params := { p8 with dTx := 2 }, wc := 3, storage := slots [0x41#8, 0x42#8, 0x43#8] }
theorem test_witness_prime_alone :
    Inv (queuedThree 0x4000#16) ∧ (queuedThree 0x4000#16).AtCommand ∧ (queuedThree 0x4000#16).Fetches .prime :=
  ⟨inv_of_idle (by decide) (by decide) (by decide) (by decide) rfl, ⟨⟨rfl, rfl, rfl⟩, rfl⟩, ⟨_, rfl, rfl⟩⟩
theorem test_witness_drain_alone :
    Inv { queuedThree 0x5000#16 with ie := false } ∧
    State.AtCommand { queuedThree 0x5000#16 with ie := false } ∧
    State.Fetches { queuedThree 0x5000#16 with ie := false } .drain :=
  ⟨inv_of_idle (by decide) (by decide) (by decide) (by decide) rfl, ⟨⟨rfl, rfl, rfl⟩, rfl⟩, ⟨_, rfl, rfl⟩⟩
/-- HandlerAloneReturns. -/
theorem test_witness_handler_alone :
    Inv { queuedThree 0x3000#16 with ctx := .interrupt, tc := true } ∧
    State.InHandler { queuedThree 0x3000#16 with ctx := .interrupt, tc := true } (.drain .s1) :=
  ⟨inv_of_idle (by decide) (by decide) (by decide) (by decide) ⟨rfl, rfl, rfl, trivial⟩, ⟨rfl, rfl, rfl⟩⟩
/-- AtomicHandlerIsItsSeparateSteps. -/
def atomicEntry : State :=
  { queuedThree 0x3000#16 with params := { p8 with dTx := 2, isrAtomic := true }, tc := true,
                               sched := [.entry] }
theorem test_witness_atomic :
    Inv atomicEntry ∧ atomicEntry.chosenTurn = some .entry ∧ atomicEntry.params.isrAtomic = true :=
  ⟨inv_of_idle (by decide) (by decide) (by decide) (by decide) rfl, by decide, rfl⟩

/-- OnlyTheConsumerMovesRc: the mainline at S4 of a pass, and the atomic handler run. -/
theorem test_witness_rc :
    primingS4.chosenTurn = some .mainline ∧ (answered (step primingS4)).map (·.rc) = some 1 ∧
    (answered (step atomicEntry)).map (fun t => (t.rc, t.tc)) = some (2, false) := by decide
/-- LineSendsTheOldestByte: each policy, with and without a byte left. -/
theorem test_witness_line :
    State.chosenTurn { ready 0x3000#16 with txq := [0x41#8], sched := [.line] } = some .line ∧
    State.chosenTurn { ready 0x3000#16 with params := { p8 with tcPolicy := .onIdle }, txq := [0x41#8],
                                            sched := [.line] } = some .line ∧
    State.chosenTurn { ready 0x3000#16 with params := { p8 with dTx := 2, tcPolicy := .onIdle },
                                            txq := [0x41#8, 0x42#8], sched := [.line] } = some .line := by
  decide

/-- The frames: a command of one step, a drain command and `ENQB` each answer a next state. -/
theorem test_witness_frames :
    (answered (exec .enqe (ready 0x3000#16))).isSome = true ∧
    (answered (exec .prime (ready 0x4000#16))).isSome = true ∧
    (answered (exec .drain (inHandler (.drain .s1)))).isSome = true ∧
    (answered (exec (.enqb 0x41#8) { ready 0x2041#16 with mstate := .enqbS3 (some 0) 1 })).isSome = true ∧
    (answered (exec (.enqb 0x41#8) (ready 0x2041#16))).isSome = true := by decide

end Sys2Proof.Tests
end

section
/-! PROOF. What each agent's step writes, field by field, and the statements of 10_state.md on who writes what
that follow (O13 to O21, O30). -/

namespace Sys2Proof.Machine

variable {s t u : State} {turn : Turn}

/-! ### What the mainline owns (R147) -/

/-- `t` holds everything that only a mainline step writes, and what no step writes, as `s` does. -/
structure KeepsMainline (s t : State) : Prop where
  pc : t.pc = s.pc
  mstate : t.mstate = s.mstate
  wc : t.wc = s.wc
  storage : t.storage = s.storage
  trunc : t.trunc = s.trunc
  ie : t.ie = s.ie
  cfg : t.cfg = s.cfg
  txen : t.txen = s.txen
  rsp : t.rsp = s.rsp
  params : t.params = s.params
  prog : t.prog = s.prog

theorem KeepsMainline.refl (s : State) : KeepsMainline s s :=
  ⟨rfl, rfl, rfl, rfl, rfl, rfl, rfl, rfl, rfl, rfl, rfl⟩

theorem KeepsMainline.trans (h : KeepsMainline s t) (k : KeepsMainline t u) : KeepsMainline s u :=
  ⟨k.pc.trans h.pc, k.mstate.trans h.mstate, k.wc.trans h.wc, k.storage.trans h.storage,
    k.trunc.trans h.trunc, k.ie.trans h.ie, k.cfg.trans h.cfg, k.txen.trans h.txen,
    k.rsp.trans h.rsp, k.params.trans h.params, k.prog.trans h.prog⟩

theorem KeepsMainline.spend (s : State) : KeepsMainline s s.spend :=
  ⟨rfl, rfl, rfl, rfl, rfl, rfl, rfl, rfl, rfl, rfl, rfl⟩

/-- The command at `pc` is the same one. -/
theorem KeepsMainline.fetches (k : KeepsMainline s t) {i : Instr} (h : s.Fetches i) : t.Fetches i := by
  unfold State.Fetches State.fetch at *
  rwa [k.prog, k.pc]

/-- Raising a fault writes `fault` only (R130). -/
theorem keepsMainline_raise (s : State) (r : FaultRecord) : KeepsMainline s (s.raise r) :=
  ⟨s.raise_pc r, s.raise_mstate r, s.raise_wc r, s.raise_storage r, s.raise_trunc r, s.raise_ie r,
    s.raise_cfg r, s.raise_txen r, s.raise_rsp r, s.raise_params r, s.raise_prog r⟩

/-- A drain pass writes `txq`, the history and `rc` only (R101). -/
theorem PassGoes.keepsMainline {d d' : DrainLabel} (h : PassGoes s d d' t) : KeepsMainline s t := by
  cases h <;> exact ⟨rfl, rfl, rfl, rfl, rfl, rfl, rfl, rfl, rfl, rfl, rfl⟩

/-- `LINE`'s step as one update: the flag is set or stays, and its event is logged where it is set. -/
theorem transmit_eq (s : State) (b : Byte) (rest : List Byte) :
    transmit s b rest =
      { s with txq := rest, lineOut := s.lineOut ++ [b],
               tc := s.tc || setsTc s.params.tcPolicy rest,
               hist := s.hist ++ .tx b :: if setsTc s.params.tcPolicy rest then [.tcSet] else [] } := by
  cases h : setsTc s.params.tcPolicy rest with
  | true => simp [transmit_setting h]
  | false => simp [transmit_leaving h]

/-- No other agent's step, and no entry, writes what the mainline owns (R141, R147). -/
theorem Micro.keepsMainline (h : Micro s turn t) (ht : turn ≠ .mainline) : KeepsMainline s t := by
  cases h with
  | handlerPass _ _ _ _ _ hp =>
    have k := hp.keepsMainline
    exact ⟨k.pc, k.mstate, k.wc, k.storage, k.trunc, k.ie, k.cfg, k.txen, k.rsp, k.params, k.prog⟩
  | handlerRaise => exact keepsMainline_raise s _
  | handlerExit | clrf | iret | entry => exact ⟨rfl, rfl, rfl, rfl, rfl, rfl, rfl, rfl, rfl, rfl, rfl⟩
  | line =>
    rw [transmit_eq]
    exact ⟨rfl, rfl, rfl, rfl, rfl, rfl, rfl, rfl, rfl, rfl, rfl⟩
  | _ => exact absurd rfl ht

/-- A step of the machine is an atomic step of the mainline, or keeps all that the mainline owns. -/
theorem step_mainline_or_keeps (h : step s = .next t) :
    (s.chosenTurn = some .mainline ∧ Micro s.spend .mainline t) ∨ KeepsMainline s t := by
  obtain ⟨turn, hc, ht⟩ | ⟨-, rfl⟩ := turnSteps_of_step h
  · by_cases hm : turn = .mainline
    · subst hm; exact .inl ⟨hc, ht⟩
    · refine .inr ((KeepsMainline.spend s).trans ?_)
      exact turnSteps_rel .refl (fun _ _ _ => .trans) (fun _ _ h => h.keepsMainline hm)
        (fun _ _ _ h => h.keepsMainline (by decide)) ht
  · exact .inr (.refl _)

/-! ### What a mainline step writes -/

/-- `pc` moves only when a command completes, by 1 (R27). -/
theorem Micro.pc_mainline (h : Micro s .mainline t) : t.pc = s.pc ∨ t.pc = s.pc + 1 := by
  cases h with
  | raise | primeRaise | drainRaise => exact .inl (s.raise_pc _)
  | primePass _ _ _ _ _ _ hp | drainPass _ _ _ _ _ _ hp => exact .inl hp.keepsMainline.pc
  | enqbSnapshot | enqbClaim | enqbFits | enqbStore | primeDisable | primeExit => exact .inl rfl
  | _ => exact .inr rfl

/-- The parameters and the command stream are written by no step (R7, R43). -/
theorem Micro.params_prog (h : Micro s .mainline t) : t.params = s.params ∧ t.prog = s.prog := by
  cases h with
  | raise | primeRaise | drainRaise => exact ⟨s.raise_params _, s.raise_prog _⟩
  | primePass _ _ _ _ _ _ hp | drainPass _ _ _ _ _ _ hp =>
    exact ⟨hp.keepsMainline.params, hp.keepsMainline.prog⟩
  | _ => exact ⟨rfl, rfl⟩

/-- `cfg` and `txen` are written by `CFG` alone, which sets both (R30, R32). -/
theorem Micro.cfg_txen (h : Micro s .mainline t) :
    t.cfg = s.cfg ∧ t.txen = s.txen ∨ s.Fetches .cfg ∧ t.cfg = true ∧ t.txen = true := by
  cases h with
  | raise | primeRaise | drainRaise => exact .inl ⟨s.raise_cfg _, s.raise_txen _⟩
  | primePass _ _ _ _ _ _ hp | drainPass _ _ _ _ _ _ hp =>
    exact .inl ⟨hp.keepsMainline.cfg, hp.keepsMainline.txen⟩
  | cfg _ hb => exact .inr ⟨hb, rfl, rfl⟩
  | _ => exact .inl ⟨rfl, rfl⟩

/-- The storage is written by `ENQB` S3 alone, in slot `wc` (R21, R46). -/
theorem Micro.storage_mainline (h : Micro s .mainline t) :
    t.storage = s.storage ∨ ∃ b r n, s.Fetches (.enqb b) ∧ s.mstate = .enqbS3 r n ∧
      t.storage = Memory.write s.storage s.wc b := by
  cases h with
  | raise | primeRaise | drainRaise => exact .inl (s.raise_storage _)
  | primePass _ _ _ _ _ _ hp | drainPass _ _ _ _ _ _ hp => exact .inl hp.keepsMainline.storage
  | enqbStore _ b hb r n hs => exact .inr ⟨b, r, n, hb, hs, rfl⟩
  | _ => exact .inl rfl

/-- `wc` is written by `ENQB` S4 alone, with its local `n` (R22, R24). -/
theorem Micro.wc_mainline (h : Micro s .mainline t) :
    t.wc = s.wc ∨ ∃ b r n, s.Fetches (.enqb b) ∧ s.mstate = .enqbS4 r n ∧ t.wc = n := by
  cases h with
  | raise | primeRaise | drainRaise => exact .inl (s.raise_wc _)
  | primePass _ _ _ _ _ _ hp | drainPass _ _ _ _ _ _ hp => exact .inl hp.keepsMainline.wc
  | enqbPublish _ b hb r n hs => exact .inr ⟨b, r, n, hb, hs, rfl⟩
  | _ => exact .inl rfl

/-- `trunc` is set by S2 of a NONBLOCKING `ENQB` that finds the buffer full, and cleared by `ENQE` (R28). -/
theorem Micro.trunc_mainline (h : Micro s .mainline t) :
    t.trunc = s.trunc ∨
      (t.trunc = true ∧ s.params.enqPolicy = .nonblocking ∧ ∃ r, s.mstate = .enqbS2 r r) ∨
      (t.trunc = false ∧ s.Fetches .enqe) := by
  cases h with
  | raise | primeRaise | drainRaise => exact .inl (s.raise_trunc _)
  | primePass _ _ _ _ _ _ hp | drainPass _ _ _ _ _ _ hp => exact .inl hp.keepsMainline.trunc
  | enqbDropFull _ _ _ r n hs hp hn => exact .inr (.inl ⟨rfl, hp, r, hn ▸ hs⟩)
  | enqe _ hb => exact .inr (.inr ⟨rfl, hb⟩)
  | _ => exact .inl rfl

/-- `ie` is written by `CFG`, `PRIME` and `IEN` (R29, R122). -/
theorem Micro.ie_mainline (h : Micro s .mainline t) :
    t.ie = s.ie ∨ s.Fetches .cfg ∨ s.Fetches .prime ∨ ∃ e, s.Fetches (.ien e) ∧ t.ie = e := by
  cases h with
  | raise | primeRaise | drainRaise => exact .inl (s.raise_ie _)
  | primePass _ _ _ _ _ _ hp | drainPass _ _ _ _ _ _ hp => exact .inl hp.keepsMainline.ie
  | cfg _ hb => exact .inr (.inl hb)
  | primeDisable _ hb | primeEnable _ hb => exact .inr (.inr (.inl hb))
  | ien _ e hb => exact .inr (.inr (.inr ⟨e, hb, rfl⟩))
  | _ => exact .inl rfl

/-- `rsp` is written by `EMPTY` and `OCC` (R34). -/
theorem Micro.rsp_mainline (h : Micro s .mainline t) :
    t.rsp = s.rsp ∨ s.Fetches .empty ∨ s.Fetches .occ := by
  cases h with
  | raise | primeRaise | drainRaise => exact .inl (s.raise_rsp _)
  | primePass _ _ _ _ _ _ hp | drainPass _ _ _ _ _ _ hp => exact .inl hp.keepsMainline.rsp
  | empty _ hb => exact .inr (.inl hb)
  | occ _ hb => exact .inr (.inr hb)
  | _ => exact .inl rfl

/-! ### What the interrupt context and `LINE` write -/

/-- A drain pass writes no flag. -/
theorem PassGoes.tc {d d' : DrainLabel} (h : PassGoes s d d' t) : t.tc = s.tc := by
  cases h <;> rfl

/-- A drain pass changes no context. -/
theorem PassGoes.ctx {d d' : DrainLabel} (h : PassGoes s d d' t) : t.ctx = s.ctx := by
  cases h <;> rfl

/-- A drain pass leaves it to the handler to move `hstate`. -/
theorem PassGoes.hstate {d d' : DrainLabel} (h : PassGoes s d d' t) : t.hstate = s.hstate := by
  cases h <;> rfl

/-- A drain pass moves `rc` at its S4 alone, by one (R101). -/
theorem PassGoes.rc {d d' : DrainLabel} (h : PassGoes s d d' t) :
    t.rc = s.rc ∨ t.rc = s.next s.rc ∧ ∃ b, d = .s4 b := by
  cases h with
  | advance b => exact .inr ⟨rfl, b, rfl⟩
  | _ => exact .inl rfl

/-- Outside the handler, `rc` is written by S4 of a mainline drain pass alone (R23, R24). -/
theorem Micro.rc_of_ne_handler (h : Micro s turn t) (ht : turn ≠ .handler) :
    t.rc = s.rc ∨ turn = .mainline ∧ t.rc = s.next s.rc ∧
      ∃ b, s.mstate = .primeP2 (.s4 b) ∨ s.mstate = .drain (.s4 b) := by
  cases h with
  | raise | primeRaise | drainRaise => exact .inl (s.raise_rc _)
  | primePass _ _ d _ _ hs hp =>
    refine hp.rc.imp id fun ⟨hr, b, hd⟩ => ⟨rfl, hr, b, .inl ?_⟩
    rw [hs, hd]
  | drainPass _ _ d _ _ hs hp =>
    refine hp.rc.imp id fun ⟨hr, b, hd⟩ => ⟨rfl, hr, b, .inr ?_⟩
    obtain ⟨-, -, h1⟩ | hm := hs
    · rw [h1] at hd; cases hd
    · rw [hm, hd]
  | line => rw [transmit_eq]; exact .inl rfl
  | handlerPass | handlerExit | handlerRaise | clrf | iret => exact absurd rfl ht
  | _ => exact .inl rfl

/-- `tc` is set by `LINE` alone (R31). -/
theorem Micro.tc_of_ne_line (h : Micro s turn t) (ht : turn ≠ .line) (hc : s.tc = false) :
    t.tc = false := by
  cases h with
  | raise | primeRaise | drainRaise | handlerRaise => rw [s.raise_tc]; exact hc
  | primePass _ _ _ _ _ _ hp | drainPass _ _ _ _ _ _ hp | handlerPass _ _ _ _ _ hp =>
    exact hp.tc.trans hc
  | clrf => rfl
  | line => exact absurd rfl ht
  | _ => exact hc

/-- `tc` is cleared by the handler alone (R31, R103). -/
theorem Micro.tc_of_ne_handler (h : Micro s turn t) (ht : turn ≠ .handler) (hc : s.tc = true) :
    t.tc = true := by
  cases h with
  | raise | primeRaise | drainRaise => rw [s.raise_tc]; exact hc
  | primePass _ _ _ _ _ _ hp | drainPass _ _ _ _ _ _ hp => exact hp.tc.trans hc
  | line => rw [transmit_eq]; simp [hc]
  | handlerPass | handlerExit | handlerRaise | clrf | iret => exact absurd rfl ht
  | _ => exact hc

/-- Outside the interrupt context's own turns (the handler's, and entry with the atomic handler inside), a step of
the machine is at most one atomic step. -/
theorem step_handler_or_micro (h : step s = .next t) :
    (s.chosenTurn = some .handler ∨ s.chosenTurn = some .entry ∧ s.params.isrAtomic = true) ∨
      (∃ turn, s.chosenTurn = some turn ∧ turn ≠ .handler ∧ Micro s.spend turn t) ∨ t = s := by
  obtain ⟨turn, hc, ht⟩ | ⟨-, rfl⟩ := turnSteps_of_step h
  · cases turn with
    | handler => exact .inl (.inl hc)
    | entry =>
      cases ha : s.params.isrAtomic with
      | true => exact .inl (.inr ⟨hc, rfl⟩)
      | false =>
        obtain ⟨u, hu, -, he⟩ := ht
        cases he ha
        exact .inr (.inl ⟨.entry, hc, by decide, hu⟩)
    | mainline => exact .inr (.inl ⟨.mainline, hc, by decide, ht⟩)
    | line => exact .inr (.inl ⟨.line, hc, by decide, ht⟩)
  · exact .inr (.inr rfl)

/-! ### The history and the line -/

/-- The history and the line of `t` go on where those of `s` end. -/
structure Appends (s t : State) : Prop where
  hist : s.hist <+: t.hist
  lineOut : s.lineOut <+: t.lineOut

theorem Appends.refl (s : State) : Appends s s := ⟨List.prefix_rfl, List.prefix_rfl⟩

theorem Appends.trans (h : Appends s t) (k : Appends t u) : Appends s u :=
  ⟨h.hist.trans k.hist, h.lineOut.trans k.lineOut⟩

theorem PassGoes.appends {d d' : DrainLabel} (h : PassGoes s d d' t) : Appends s t := by
  cases h with
  | push => exact ⟨List.prefix_append _ _, List.prefix_rfl⟩
  | _ => exact ⟨List.prefix_rfl, List.prefix_rfl⟩

/-- Every atomic step logs at the end of the history and sends at the end of the line (R38, R40). -/
theorem Micro.appends (h : Micro s turn t) : Appends s t := by
  cases h with
  | raise | primeRaise | drainRaise | handlerRaise =>
    exact ⟨by rw [s.raise_hist], by rw [s.raise_lineOut]⟩
  | primePass _ _ _ _ _ _ hp | drainPass _ _ _ _ _ _ hp | handlerPass _ _ _ _ _ hp =>
    exact ⟨hp.appends.hist, hp.appends.lineOut⟩
  | enqbDropTruncated | enqbDropFull | enqbPublish | clrf | iret | entry =>
    exact ⟨List.prefix_append _ _, List.prefix_rfl⟩
  | line => rw [transmit_eq]; exact ⟨List.prefix_append _ _, List.prefix_append _ _⟩
  | _ => exact ⟨List.prefix_rfl, List.prefix_rfl⟩

/-! ### The statements -/

/-- Settles O13: growing at the end is reflexive and transitive, and every atomic step does. -/
theorem historyAndLineOnlyGrow : Obligations.HistoryAndLineOnlyGrow := by
  unfold Obligations.HistoryAndLineOnlyGrow
  intro s t h
  have ⟨⟨es, he⟩, bs, hb⟩ : Appends s t :=
    step_rel .refl (fun _ => ⟨List.prefix_rfl, List.prefix_rfl⟩) (fun _ _ _ => .trans)
      (fun _ _ _ => Micro.appends) h
  exact ⟨⟨es, he.symm⟩, bs, hb.symm⟩

/-- Settles O14: only a mainline step completes a command. -/
theorem pcStaysOrAdvancesByOne : Obligations.PcStaysOrAdvancesByOne := by
  unfold Obligations.PcStaysOrAdvancesByOne
  intro s t h
  obtain ⟨hc, hm⟩ | k := step_mainline_or_keeps h
  · exact hm.pc_mainline.imp id fun hp => ⟨hp, hc⟩
  · exact .inl k.pc

/-- Settles O15: `CFG` alone writes `cfg` and `txen`, and sets them. -/
theorem configurationIsNeverUndone : Obligations.ConfigurationIsNeverUndone := by
  unfold Obligations.ConfigurationIsNeverUndone
  intro s t h
  obtain ⟨hc, hm⟩ | k := step_mainline_or_keeps h
  · obtain ⟨hp, hg⟩ := hm.params_prog
    obtain ⟨h1, h2⟩ | ⟨hb, h1, h2⟩ := hm.cfg_txen
    · exact ⟨hp, hg, h1.trans, h2.trans, fun hne => (hne.elim (· h1) (· h2)).elim⟩
    · exact ⟨hp, hg, fun _ => h1, fun _ => h2, fun _ => ⟨hc, hb⟩⟩
  · exact ⟨k.params, k.prog, k.cfg.trans, k.txen.trans,
      fun hne => (hne.elim (· k.cfg) (· k.txen)).elim⟩

/-- Settles O16: the storage's only writer is `ENQB` S3, in slot `wc`; `wc`'s is S4. -/
theorem onlyEnqbWritesStorageAndWc : Obligations.OnlyEnqbWritesStorageAndWc := by
  unfold Obligations.OnlyEnqbWritesStorageAndWc
  intro s t h
  obtain ⟨hc, hm⟩ | k := step_mainline_or_keeps h
  · refine ⟨fun ⟨j, hj⟩ => ?_, fun hw => ⟨hc, hm.wc_mainline.resolve_left hw⟩⟩
    obtain hst | ⟨b, r, n, hb, hs, hst⟩ := hm.storage_mainline
    · exact (hj (congrArg (Memory.read · j) hst)).elim
    · rw [hst]
      exact ⟨hc, ⟨b, r, n, hb, hs, Memory.read_write_self _ _ _⟩,
        fun j hj => Memory.read_write_other _ hj.symm _⟩
  · exact ⟨fun ⟨j, hj⟩ => (hj (congrArg (Memory.read · j) k.storage)).elim, fun hw => (hw k.wc).elim⟩

/-- Settles O17: a step that is not the interrupt context's is at most one atomic step, and of those only S4 of a
mainline pass writes `rc`. -/
theorem onlyTheConsumerMovesRc : Obligations.OnlyTheConsumerMovesRc := by
  unfold Obligations.OnlyTheConsumerMovesRc
  intro s t h hne
  obtain (hh | he) | ⟨turn, hc, ht, hm⟩ | rfl := step_handler_or_micro h
  · exact .inl hh
  · exact .inr (.inl he)
  · obtain ⟨rfl, hr⟩ := (hm.rc_of_ne_handler ht).resolve_left hne
    exact .inr (.inr ⟨hc, hr⟩)
  · exact (hne rfl).elim

/-- Settles O18: the mainline's S2 sets `trunc`, its `ENQE` clears it. -/
theorem onlyAFullEnqbSetsTrunc : Obligations.OnlyAFullEnqbSetsTrunc := by
  unfold Obligations.OnlyAFullEnqbSetsTrunc
  intro s t h
  obtain ⟨hc, hm⟩ | k := step_mainline_or_keeps h
  · obtain he | ⟨h1, hfull⟩ | ⟨h0, hb⟩ := hm.trunc_mainline
    · exact ⟨fun h0 h1 => by simp [he, h0] at h1, fun h1 h0 => by simp [he, h1] at h0⟩
    · exact ⟨fun _ _ => hfull, fun _ h0 => by simp [h1] at h0⟩
    · exact ⟨fun _ h1 => by simp [h0] at h1, fun _ _ => ⟨hc, hb⟩⟩
  · exact ⟨fun h0 h1 => by simp [k.trunc, h0] at h1, fun h1 h0 => by simp [k.trunc, h1] at h0⟩

/-- Settles O19: the mainline's `CFG`, `PRIME` and `IEN` are the only writers of `ie`. -/
theorem onlyCfgPrimeIenWriteIe : Obligations.OnlyCfgPrimeIenWriteIe := by
  unfold Obligations.OnlyCfgPrimeIenWriteIe
  intro s t h hne
  obtain ⟨hc, hm⟩ | k := step_mainline_or_keeps h
  · exact ⟨hc, hm.ie_mainline.resolve_left hne⟩
  · exact (hne k.ie).elim

/-- A masked `tc` stays set (R145): with `ie = 0` in the mainline context neither entry nor the handler is enabled. -/
theorem step_keeps_masked_tc (h : step s = .next t) (htc : s.tc = true) (hie : s.ie = false)
    (hctx : s.ctx = .mainline) : t.tc = true := by
  obtain (hh | ⟨he, -⟩) | ⟨turn, -, ht, hm⟩ | rfl := step_handler_or_micro h
  · have := (enabled_handler.mp (State.chosenTurn_enabled hh)).ctx
    rw [hctx] at this; cases this
  · have := (enabled_entry.mp (State.chosenTurn_enabled he)).2
    simp [State.irq, hie] at this
  · exact hm.tc_of_ne_handler ht htc
  · exact htc

/-- Settles O20: `LINE` sets `tc`, the handler clears it, and a masked `tc` waits. -/
theorem tcIsSetByLineAndClearedByHandler : Obligations.TcIsSetByLineAndClearedByHandler := by
  unfold Obligations.TcIsSetByLineAndClearedByHandler
  intro s t h
  refine ⟨fun h0 h1 => ?_, fun h1 h0 => ?_, step_keeps_masked_tc h⟩
  · obtain ⟨turn, hc, ht⟩ | ⟨-, rfl⟩ := turnSteps_of_step h
    · by_cases hl : turn = .line
      · rwa [hl] at hc
      · have := turnSteps_rel (R := fun a b => a.tc = false → b.tc = false) (fun _ => id)
          (fun _ _ _ f g => g ∘ f) (fun _ _ hm => hm.tc_of_ne_line hl)
          (fun _ _ _ hm => hm.tc_of_ne_line (by decide)) ht h0
        rw [h1] at this; cases this
    · rw [h0] at h1; cases h1
  · obtain hh | ⟨turn, -, ht, hm⟩ | rfl := step_handler_or_micro h
    · exact hh
    · rw [hm.tc_of_ne_handler ht h1] at h0; cases h0
    · rw [h1] at h0; cases h0

/-- Settles O21: the mainline's queries are the only writers of `rsp`. -/
theorem onlyQueriesWriteRsp : Obligations.OnlyQueriesWriteRsp := by
  unfold Obligations.OnlyQueriesWriteRsp
  intro s t h hne
  obtain ⟨hc, hm⟩ | k := step_mainline_or_keeps h
  · exact ⟨hc, hm.rsp_mainline.resolve_left hne⟩
  · exact (hne k.rsp).elim

/-- No command has a step while a fault stands (R130): each is issued first. -/
theorem exec_halted {r : FaultRecord} (h : s.fault = some r) (i : Instr) :
    exec i s = .fault (.halted r) := by
  cases i <;> exact issue_faulted h

/-- Settles O30. -/
theorem aFaultStopsEveryAgent : Obligations.AFaultStopsEveryAgent := by
  unfold Obligations.AFaultStopsEveryAgent
  exact fun s r hp hf => ⟨step_halted hp hf, exec_halted hf, State.raise_of_some hf⟩

end Sys2Proof.Machine
end

section
/-! PROOF. Every atomic step keeps the invariant of R42 (O8): what the mainline and the handler know survives the
other agents' steps, and each step leaves its own agent knowing what its next label needs. -/

namespace Sys2Proof.Machine

variable {s t : State} {turn : Turn} {d d' : DrainLabel}

/-! ### Cursors -/

/-- `next` is injective on cursors in range. -/
theorem nextCursor_inj {c w r : Nat} (hw : w < c) (hr : r < c) (h : nextCursor c w = nextCursor c r) :
    w = r := by
  rw [nextCursor_eq hw, nextCursor_eq hr] at h
  split_ifs at h <;> omega

/-- A stale snapshot is conservative (R59): if the slot after `w` is free as of a snapshot `r` that leaves at least
the present occupancy, it is free now. -/
theorem next_ne_of_snapshot {c w r rc : Nat} (hw : w < c) (hr : r < c) (hrc : rc < c)
    (ho : occupancy c w rc ≤ occupancy c w r) (h : nextCursor c w ≠ r) : nextCursor c w ≠ rc := by
  rw [occupancy_eq hw hr, occupancy_eq hw hrc] at ho
  rw [nextCursor_eq hw] at h ⊢
  split_ifs at ho h ⊢ <;> omega

/-! ### What the invariant says of an agent at a label -/

/-- What `mstate` promises, at the micro-state it is known to be. -/
theorem Inv.mainline_at (I : Inv s) {m : MState} (h : s.mstate = m) : (s.goto m).MainlineKnows := by
  subst h; exact I.mainline

/-- What `hstate` promises inside the interrupt context, at the position it is known to be. -/
theorem Inv.handler_at (I : Inv s) (m : s.Hand) {x : HState} (h : s.hstate = x) :
    State.HandlerKnows { s with ctx := .interrupt, hstate := x } := by
  rw [← m.ctx, ← h]; exact I.handler

/-- Inside the interrupt context `hstate` promises what its position asks. -/
theorem handlerKnows_of_interrupt (hc : s.ctx = .interrupt) {x : HState}
    (h : State.HandlerKnows { s with ctx := .interrupt, hstate := x }) :
    State.HandlerKnows { s with hstate := x } := by
  rwa [← hc] at h

/-- The handler runs only configured and with the interrupt enabled (R41, R140). -/
theorem Inv.hand_enabled (I : Inv s) (m : s.Hand) : s.cfg = true ∧ s.ie = true := by
  cases hs : s.hstate with
  | drain => obtain ⟨hc, he, -⟩ := I.handler_at m hs; exact ⟨hc, he⟩
  | clrf => obtain ⟨hc, he, -⟩ := I.handler_at m hs; exact ⟨hc, he⟩
  | iret => exact I.handler_at m hs

theorem State.EnqbUnderWay.cfg {b : Byte} {n : Nat} (h : s.EnqbUnderWay b n) : s.cfg = true := h.1

/-- The local `n` of an `ENQB` under way is `next(wc)` (R57). -/
theorem State.EnqbUnderWay.next_eq {b : Byte} {n : Nat} (h : s.EnqbUnderWay b n) : n = s.next s.wc := by
  obtain ⟨-, -, hn, -⟩ := h; exact hn

/-- No command is under way before `CFG` (R80). -/
theorem Inv.cfg_of_not_idle (I : Inv s) (h : s.mstate ≠ .idle) : s.cfg = true := by
  cases hm : s.mstate with
  | idle => exact absurd hm h
  | enqbS1 | primeP1 | primeP2 | primeP3 | drain => exact (I.mainline_at hm).1
  | enqbS2 | enqbS3 => obtain ⟨⟨b, hb⟩, -⟩ := I.mainline_at hm; exact hb.cfg
  | enqbS4 => obtain ⟨⟨b, hb, -⟩, -⟩ := I.mainline_at hm; exact hb.cfg

/-- `ENQB` at S1, wherever the step began, is configured. -/
theorem Inv.cfg_of_enqbS1 (I : Inv s) (h : s.Begins ∨ s.mstate = .enqbS1) : s.cfg = true :=
  h.elim And.right fun hm => I.cfg_of_not_idle (by simp [hm])

/-- What a mainline drain pass knows at its label, at the start of the command too. -/
theorem Inv.drain_at (I : Inv s) (h : s.DrainAt d) : s.cfg = true ∧ s.ie = false ∧ s.PassKnows d := by
  obtain ⟨hb, hi, rfl⟩ | hm := h
  · exact ⟨hb.2, hi, trivial⟩
  · obtain ⟨hc, -, hi, hk⟩ := I.mainline_at hm; exact ⟨hc, hi, hk⟩

/-- The conjunct of `Inv` about an unconfigured block asks nothing once `CFG` has run. -/
theorem imp_of_configured {P : Prop} (hc : s.cfg = true) : s.cfg = false → P :=
  fun h => absurd (hc.symm.trans h) (by decide)

/-- In the mainline context, with the handler at its start, `hstate` keeps its promise. -/
theorem handlerKnows_of_mainline (hc : s.ctx = .mainline) (hs : s.hstate = .drain .s1) :
    s.HandlerKnows := by
  unfold State.HandlerKnows; rw [hc]; exact hs

/-! ### A step of a drain pass -/

/-- A step of a drain pass leaves it knowing what the next label needs (R101). -/
theorem PassGoes.knows (h : PassGoes s d d' t) (hk : s.PassKnows d) : t.PassKnows d' := by
  cases h with
  | ready h => exact h
  | nonempty h => exact ⟨hk, h⟩
  | push b _ hb _ => exact ⟨hk.2, hb⟩
  | advance => trivial

/-- A byte pushed while ready fits (R42 (d), R117). -/
theorem length_push_le (h : s.ready = true) (b : Byte) : (s.txq ++ [b]).length ≤ s.params.dTx := by
  have := (ready_iff.mp h).2
  simpa using this

/-- Taking the oldest byte off a buffer that is not empty leaves one fewer (R51). -/
theorem Inv.occ_pop (I : Inv s) (hne : s.rc ≠ s.wc) : State.occ { s with rc := s.next s.rc } + 1 = s.occ :=
  occupancy_next_right I.wc_lt I.rc_lt hne

/-- What is left queued after `rc` moves was queued before. -/
theorem Inv.written_pop (I : Inv s) (hne : s.rc ≠ s.wc) (k : Nat)
    (hk : k < State.occ { s with rc := s.next s.rc }) :
    (Memory.read s.storage ((s.next s.rc + k) % s.params.capacity)).isSome = true := by
  have ho := I.occ_pop hne
  rw [State.next, slot_succ]
  exact I.written (k + 1) (by omega)

/-- A step of a drain pass keeps the invariant, wherever the command or the handler waits next, if both still know
what they need there. -/
theorem Inv.passGoes (I : Inv s) (hc : s.cfg = true) (hk : s.PassKnows d) (h : PassGoes s d d' t)
    {m : MState} {x : HState} (hm : State.MainlineKnows { t with mstate := m, hstate := x })
    (hh : State.HandlerKnows { t with mstate := m, hstate := x }) :
    Inv { t with mstate := m, hstate := x } := by
  cases h with
  | ready | nonempty => exact { I with mainline := hm, handler := hh }
  | push b _ _ hr =>
    exact { I with txq_le := length_push_le hr b, unconfigured := imp_of_configured hc,
                   mainline := hm, handler := hh }
  | advance =>
    exact { I with rc_lt := nextCursor_lt I.rc_lt, written := I.written_pop hk.1,
                   unconfigured := imp_of_configured hc, mainline := hm, handler := hh }

/-! ### What the mainline knows while others step -/

/-- Another agent's step takes from the buffer at most its oldest byte, and no drain pass of the mainline's loses
what it knows. -/
structure Consumes (s t : State) : Prop where
  keeps : KeepsMainline s t
  rc : t.rc = s.rc ∨ s.rc ≠ s.wc ∧ t.rc = s.next s.rc
  pass : s.ie = false → ∀ d, s.PassKnows d → t.PassKnows d

/-- Occupancy never grows under another agent's step. -/
theorem Inv.occ_le_of_consumes (I : Inv s) (c : Consumes s t) : t.occ ≤ s.occ := by
  unfold State.occ
  rw [c.keeps.params, c.keeps.wc]
  obtain hr | ⟨hne, hr⟩ := c.rc
  · rw [hr]
  · have := I.occ_pop hne
    rw [hr]
    exact Nat.le_of_succ_le this.le

/-- A slot that is free stays free under another agent's step (R59). -/
theorem Inv.next_ne_rc_of_consumes (I : Inv s) (c : Consumes s t) (h : s.next s.wc ≠ s.rc) :
    s.next s.wc ≠ t.rc := by
  obtain hr | ⟨hne, hr⟩ := c.rc
  · rwa [hr]
  · rw [hr]
    exact fun he => hne (nextCursor_inj I.wc_lt I.rc_lt he).symm

theorem KeepsMainline.enqbUnderWay (k : KeepsMainline s t) {b : Byte} {n : Nat}
    (h : s.EnqbUnderWay b n) : t.EnqbUnderWay b n := by
  obtain ⟨hc, hb, hn, ht⟩ := h
  refine ⟨k.cfg.trans hc, k.fetches hb, ?_, k.trunc.trans ht⟩
  rw [hn, State.next, State.next, k.params, k.wc]

/-- What `mstate` promises outlasts the other agents' steps. -/
theorem Inv.mainlineKnows_of_consumes (I : Inv s) (c : Consumes s t) : t.MainlineKnows := by
  have k := c.keeps
  unfold State.MainlineKnows
  rw [k.mstate]
  cases hm : s.mstate with
  | idle => trivial
  | enqbS1 =>
    obtain ⟨hc, b, hb⟩ := I.mainline_at hm
    exact ⟨k.cfg.trans hc, b, k.fetches hb⟩
  | enqbS2 r n =>
    obtain ⟨⟨b, hb⟩, hp, hr, ho⟩ := I.mainline_at hm
    simp only [k.params, k.wc]
    exact ⟨⟨b, k.enqbUnderWay hb⟩, hp, hr, (I.occ_le_of_consumes c).trans ho⟩
  | enqbS3 r n =>
    obtain ⟨⟨b, hb⟩, hn, hp⟩ := I.mainline_at hm
    obtain rfl : n = s.next s.wc := hb.next_eq
    simp only [k.params]
    exact ⟨⟨b, k.enqbUnderWay hb⟩, I.next_ne_rc_of_consumes c hn, hp⟩
  | enqbS4 r n =>
    obtain ⟨⟨b, hb, hr⟩, hn, hp⟩ := I.mainline_at hm
    obtain rfl : n = s.next s.wc := hb.next_eq
    simp only [k.params, k.storage, k.wc]
    exact ⟨⟨b, k.enqbUnderWay hb, hr⟩, I.next_ne_rc_of_consumes c hn, hp⟩
  | primeP1 =>
    obtain ⟨hc, hb⟩ := I.mainline_at hm
    exact ⟨k.cfg.trans hc, k.fetches hb⟩
  | primeP2 d =>
    obtain ⟨hc, hb, hi, hk⟩ := I.mainline_at hm
    exact ⟨k.cfg.trans hc, k.fetches hb, k.ie.trans hi, c.pass hi d hk⟩
  | primeP3 =>
    obtain ⟨hc, hb, hi⟩ := I.mainline_at hm
    exact ⟨k.cfg.trans hc, k.fetches hb, k.ie.trans hi⟩
  | drain d =>
    obtain ⟨hc, hb, hi, hk⟩ := I.mainline_at hm
    exact ⟨k.cfg.trans hc, k.fetches hb, k.ie.trans hi, c.pass hi d hk⟩

/-- A step of the handler's drain pass takes at most the oldest byte; the mainline is in no pass of its own, since
the interrupt is enabled (R106). -/
theorem PassGoes.consumes (h : PassGoes s d d' t) (hk : s.PassKnows d) (hi : s.ie = true) (x : HState) :
    Consumes s { t with hstate := x } := by
  have k := h.keepsMainline
  refine ⟨⟨k.pc, k.mstate, k.wc, k.storage, k.trunc, k.ie, k.cfg, k.txen, k.rsp, k.params, k.prog⟩, ?_,
    fun h0 => absurd (h0.symm.trans hi) (by decide)⟩
  obtain hr | ⟨hr, b, rfl⟩ := h.rc
  · exact .inl hr
  · exact .inr ⟨hk.1, hr⟩

/-! ### What is known while `LINE` steps -/

/-- A drain pass loses nothing when the peripheral gets emptier (R107). -/
theorem passKnows_transmit {b : Byte} {rest : List Byte} (h : s.txq = b :: rest) (d : DrainLabel)
    (hk : s.PassKnows d) : (transmit s b rest).PassKnows d := by
  have hr (hs : s.ready = true) : (transmit s b rest).ready = true := by
    obtain ⟨he, hl⟩ := ready_iff.mp hs
    rw [h, List.length_cons] at hl
    rw [transmit_eq]
    exact ready_iff.mpr ⟨he, Nat.lt_of_succ_lt hl⟩
  rw [transmit_eq] at hr ⊢
  cases d with
  | s1 => trivial
  | s2 => exact hr hk
  | s3 => exact ⟨hr hk.1, hk.2⟩
  | s4 => exact hk

/-- `LINE` takes nothing from the buffer. -/
theorem consumes_transmit {b : Byte} {rest : List Byte} (hm : Micro s .line (transmit s b rest))
    (h : s.txq = b :: rest) : Consumes s (transmit s b rest) where
  keeps := hm.keepsMainline (by decide)
  rc := .inl (by rw [transmit_eq])
  pass _ d := passKnows_transmit h d

/-- What `hstate` promises outlasts `LINE`'s step: `tc` is never cleared by it. -/
theorem Inv.handlerKnows_transmit (I : Inv s) {b : Byte} {rest : List Byte} (h : s.txq = b :: rest) :
    (transmit s b rest).HandlerKnows := by
  have hp := passKnows_transmit h
  have hk := I.handler
  rw [transmit_eq] at hp ⊢
  unfold State.HandlerKnows at hk ⊢
  cases hc : s.ctx with
  | mainline => rw [hc] at hk; exact hk
  | interrupt =>
    rw [hc] at hk
    cases hs : s.hstate with
    | drain d =>
      rw [hs] at hk
      obtain ⟨h1, h2, h3, h4⟩ := hk
      exact ⟨h1, h2, by simp [h3], hp d h4⟩
    | clrf =>
      rw [hs] at hk
      obtain ⟨h1, h2, h3⟩ := hk
      exact ⟨h1, h2, by simp [h3]⟩
    | iret => rw [hs] at hk; exact hk

/-! ### The steps that write what the invariant speaks of -/

/-- A fault with a code of the prologue, `CFG` or `DRAIN` keeps the invariant (R130). -/
theorem Inv.raise (I : Inv s) (hf : s.fault = none) {r : FaultRecord} (hr : r.code ≤ 5) : Inv (s.raise r) := by
  rw [State.raise_of_none hf]
  exact { I with fault_code := fun q hq => by cases hq; exact hr }

/-- What S3 stores in slot `wc` leaves every queued byte written: slot `wc` is not among them (R42 (c)). -/
theorem Inv.written_store (I : Inv s) (b : Byte) (k : Nat) (hk : k < s.occ) :
    (Memory.read (Memory.write s.storage s.wc b) ((s.rc + k) % s.params.capacity)).isSome = true := by
  rw [Memory.read_write_other _ (slot_ne_write I.wc_lt I.rc_lt hk).symm]
  exact I.written k hk

/-- Publishing a written slot `wc` keeps every queued slot written. -/
theorem Inv.written_publish (I : Inv s) {b : Byte} (hb : Memory.read s.storage s.wc = some b)
    (hn : s.next s.wc ≠ s.rc) (k : Nat) (hk : k < State.occ { s with wc := s.next s.wc }) :
    (Memory.read s.storage ((s.rc + k) % s.params.capacity)).isSome = true := by
  have ho : State.occ { s with wc := s.next s.wc } = s.occ + 1 := occupancy_next_left I.wc_lt I.rc_lt hn
  obtain hlt | rfl : k < s.occ ∨ k = s.occ := by omega
  · exact I.written k hlt
  · rw [State.occ, slot_occupancy I.wc_lt I.rc_lt, hb]; rfl

/-- `ENQB` S3 stores in slot `wc` (R82, R83). -/
theorem Inv.store (I : Inv s) (m : s.Main) {b : Byte} (hb : s.Fetches (.enqb b)) {r : Option Nat} {n : Nat}
    (hs : s.mstate = .enqbS3 r n) : Inv ((memWrite s s.wc b).goto (.enqbS4 r n)) := by
  obtain ⟨⟨b', hc, -, hn, ht⟩, hne, hp⟩ := I.mainline_at hs
  exact { I with
    written := I.written_store b
    storage_wf := Memory.wf_write _ _ _ I.storage_wf
    storage_lt := fun c hm => (Memory.mem_write _ _ _ c hm).elim (· ▸ I.wc_lt) (I.storage_lt c)
    mainline := ⟨⟨b, ⟨hc, hb, hn, ht⟩, Memory.read_write_self _ _ _⟩, hne, hp⟩
    handler := handlerKnows_of_mainline m.ctx (I.handler_start m) }

/-- `ENQB` S4 publishes the slot that S3 wrote (R57). -/
theorem Inv.publish (I : Inv s) (m : s.Main) {b : Byte} (hb : s.Fetches (.enqb b)) {r : Option Nat} {n : Nat}
    (hs : s.mstate = .enqbS4 r n) : Inv ({ s with wc := n }.log (.enq b)).complete := by
  obtain ⟨⟨b', ⟨hc, -, hn, -⟩, hread⟩, hne, -⟩ := I.mainline_at hs
  obtain rfl : n = s.next s.wc := hn
  exact { I with
    wc_lt := nextCursor_lt I.wc_lt
    written := I.written_publish hread hne
    unconfigured := imp_of_configured hc
    pc_le := hb.pc_lt
    mainline := trivial
    handler := handlerKnows_of_mainline m.ctx (I.handler_start m) }

/-- `LINE` sends a byte (R118). -/
theorem Inv.transmits (I : Inv s) {b : Byte} {rest : List Byte} (hm : Micro s .line (transmit s b rest))
    (he : s.txen = true) (h : s.txq = b :: rest) : Inv (transmit s b rest) := by
  have hmain := I.mainlineKnows_of_consumes (consumes_transmit hm h)
  have hhand := I.handlerKnows_transmit h
  have hle : rest.length ≤ s.params.dTx := by
    have := I.txq_le
    rw [h, List.length_cons] at this
    exact Nat.le_of_succ_le this
  rw [transmit_eq] at hmain hhand ⊢
  exact { I with
    txq_le := hle
    unconfigured := imp_of_configured (I.txen_cfg.symm.trans he)
    mainline := hmain
    handler := hhand }

/-! ### Every step -/

/-- Every atomic step keeps the invariant. -/
theorem Inv.micro (I : Inv s) (h : Micro s turn t) : Inv t := by
  have main (m : s.Main) {u : State} (hc : u.ctx = s.ctx) (hs : u.hstate = s.hstate) : u.HandlerKnows :=
    handlerKnows_of_mainline (hc.trans m.ctx) (hs.trans (I.handler_start m))
  cases h with
  | raise m r hr => exact I.raise m.fault hr
  | cfg m hb hi h =>
    exact { I with txen_cfg := rfl, unconfigured := imp_of_configured rfl, pc_le := hb.pc_lt,
                   mainline := trivial, handler := main m rfl rfl }
  | enqbDropTruncated m b hb hs hp h =>
    exact { I with unconfigured := imp_of_configured (I.cfg_of_enqbS1 hs), pc_le := hb.pc_lt,
                   mainline := trivial, handler := main m rfl rfl }
  | enqbSnapshot m b hb hs hp h =>
    exact { I with mainline := ⟨⟨b, I.cfg_of_enqbS1 hs, hb, rfl, h⟩, hp, I.rc_lt, le_rfl⟩,
                   handler := main m rfl rfl }
  | enqbClaim m b hb hs hp h =>
    have ht : s.trunc = false := by
      by_contra ht
      have := I.trunc_nonblocking (by simpa using ht)
      rw [hp] at this; cases this
    exact { I with mainline := ⟨⟨b, I.cfg_of_enqbS1 hs, hb, rfl, ht⟩, h, by simp [hp]⟩,
                   handler := main m rfl rfl }
  | enqbDropFull m b hb r n hs hp h =>
    exact { I with unconfigured := imp_of_configured (I.cfg_of_not_idle (by simp [hs])),
                   trunc_nonblocking := fun _ => hp, pc_le := hb.pc_lt, mainline := trivial,
                   handler := main m rfl rfl }
  | enqbFits m b hb r n hs hp h =>
    obtain ⟨⟨b', hu⟩, -, hr, ho⟩ := I.mainline_at hs
    have hn : n = s.next s.wc := hu.next_eq
    have hne : n ≠ s.rc := by
      rw [hn] at h ⊢
      exact next_ne_of_snapshot I.wc_lt hr I.rc_lt ho h
    exact { I with mainline := ⟨⟨b', hu⟩, hne, by simp [hp]⟩, handler := main m rfl rfl }
  | enqbStore m b hb r n hs h => exact I.store m hb hs
  | enqbPublish m b hb r n hs => exact I.publish m hb hs
  | enqe m hb hs =>
    exact { I with trunc_nonblocking := nofun, pc_le := hb.pc_lt, mainline := trivial,
                   handler := main m rfl rfl }
  | primeDisable m hb hs =>
    have hc : s.cfg = true := hs.elim And.right fun hm => I.cfg_of_not_idle (by simp [hm])
    exact { I with unconfigured := imp_of_configured hc, mainline := ⟨hc, hb, rfl, trivial⟩,
                   handler := main m rfl rfl }
  | primePass m hb d d' s' hs h =>
    obtain ⟨hc, -, hi, hk⟩ := I.mainline_at hs
    have k := h.keepsMainline
    exact I.passGoes hc hk h ⟨k.cfg.trans hc, k.fetches hb, k.ie.trans hi, h.knows hk⟩
      (main m h.ctx h.hstate)
  | primeExit m hb d hs h =>
    obtain ⟨hc, -, hi, -⟩ := I.mainline_at hs
    exact { I with mainline := ⟨hc, hb, hi⟩, handler := main m rfl rfl }
  | primeRaise m d r hs h =>
    obtain ⟨-, -, -, hk⟩ := I.mainline_at hs
    exact absurd h (I.pass_raises_nothing hk)
  | primeEnable m hb hs =>
    obtain ⟨hc, -⟩ := I.mainline_at hs
    exact { I with unconfigured := imp_of_configured hc, pc_le := hb.pc_lt, mainline := trivial,
                   handler := main m rfl rfl }
  | drainPass m hb d d' s' hs h =>
    obtain ⟨hc, hi, hk⟩ := I.drain_at hs
    have k := h.keepsMainline
    exact I.passGoes hc hk h ⟨k.cfg.trans hc, k.fetches hb, k.ie.trans hi, h.knows hk⟩
      (main m h.ctx h.hstate)
  | drainExit m hb d hs h =>
    exact { I with pc_le := hb.pc_lt, mainline := trivial, handler := main m rfl rfl }
  | drainRaise m d r hs h =>
    obtain ⟨-, -, hk⟩ := I.drain_at hs
    exact absurd h (I.pass_raises_nothing hk)
  | ien m e hb hs =>
    exact { I with unconfigured := imp_of_configured hs.2, pc_le := hb.pc_lt, mainline := trivial,
                   handler := main m rfl rfl }
  | empty m hb hs | occ m hb hs =>
    exact { I with pc_le := hb.pc_lt, mainline := trivial, handler := main m rfl rfl }
  | handlerPass m d d' s' hs h =>
    obtain ⟨hc, hi, ht, hk⟩ := I.handler_at m hs
    have k := h.keepsMainline
    refine I.passGoes hc hk h (I.mainlineKnows_of_consumes (h.consumes hk hi _)) ?_
    exact handlerKnows_of_interrupt (h.ctx.trans m.ctx)
      ⟨k.cfg.trans hc, k.ie.trans hi, h.tc.trans ht, h.knows hk⟩
  | handlerExit m d hs h =>
    obtain ⟨hc, hi, ht, -⟩ := I.handler_at m hs
    exact { I with handler := handlerKnows_of_interrupt m.ctx ⟨hc, hi, ht⟩ }
  | handlerRaise m d r hs h =>
    obtain ⟨-, -, -, hk⟩ := I.handler_at m hs
    exact absurd h (I.pass_raises_nothing hk)
  | clrf m hs =>
    obtain ⟨hc, hi, -⟩ := I.handler_at m hs
    exact { I with unconfigured := imp_of_configured hc,
                   handler := handlerKnows_of_interrupt (s := s.clearFlag) m.ctx ⟨hc, hi⟩ }
  | iret m hs =>
    exact { I with unconfigured := imp_of_configured (I.hand_enabled m).1, handler := rfl }
  | entry m h =>
    simp only [State.irq, Bool.and_eq_true] at h
    obtain ⟨⟨hc, hi⟩, ht⟩ := h
    exact { I with unconfigured := imp_of_configured hc, handler := ⟨hc, hi, ht, trivial⟩ }
  | line hf he b rest h => exact I.transmits (.line hf he b rest h) he h

/-- Settles O8: reading the schedule disturbs nothing, and every atomic step keeps the invariant. -/
theorem stepKeepsInv : Obligations.StepKeepsInv := by
  unfold Obligations.StepKeepsInv
  exact fun s t I h => step_keeps (fun _ => Inv.spend) (fun _ _ _ => Inv.micro) I h

end Sys2Proof.Machine
end

section
/-! PROOF. Every atomic step keeps the bytes in FIFO order (O9). A byte moves from the head of one of the three
places (the buffer, the peripheral, the line) to the tail of the next, and the move is logged; the order follows
from that alone. -/

namespace Sys2Proof.Machine

variable {s t : State} {turn : Turn} {d d' : DrainLabel}

/-! ### The flow of the bytes -/

/-- The bytes a step adds to the sequences of the `Enq`, the `Push` and the `Tx` events (R40). -/
structure Logs (s t : State) (enq push tx : List Byte) : Prop where
  enq : t.enqueuedBytes = s.enqueuedBytes ++ enq
  push : t.pushedBytes = s.pushedBytes ++ push
  tx : t.sentBytes = s.sentBytes ++ tx

/-- The bytes added are those of the events logged. -/
theorem logs_of_hist (es : List Event) (h : t.hist = s.hist ++ es) :
    Logs s t (es.filterMap Event.enqByte) (es.filterMap Event.pushByte) (es.filterMap Event.txByte) := by
  constructor
  · rw [State.enqueuedBytes, h, List.filterMap_append]; rfl
  · rw [State.pushedBytes, h, List.filterMap_append]; rfl
  · rw [State.sentBytes, h, List.filterMap_append]; rfl

theorem logs_nothing (h : t.hist = s.hist) : Logs s t [] [] [] :=
  logs_of_hist [] (h.trans (List.append_nil _).symm)

/-- The flow of bytes through the three places: what is enqueued joins the buffer's tail, what leaves the buffer's
head joins the peripheral's tail, and what leaves the peripheral's head joins the line. -/
inductive Flows (s t : State) : Prop where
  | mk (enq push tx : List Byte) (log : Logs s t enq push tx)
      (buffer : s.unpushed ++ enq = push ++ t.unpushed) (txq : s.txq ++ push = tx ++ t.txq)
      (line : t.lineOut = s.lineOut ++ tx) : Flows s t

/-- A step that moves no byte. -/
theorem Flows.nothing (log : Logs s t [] [] []) (line : t.lineOut = s.lineOut) (txq : t.txq = s.txq)
    (buffer : t.unpushed = s.unpushed) : Flows s t :=
  .mk [] [] [] log (by simp [buffer]) (by simp [txq]) (by simp [line])

/-- Bytes that move from the head of one place to the tail of the next keep their order. -/
theorem Fifo.of_flows (F : Fifo s) (h : Flows s t) : Fifo t := by
  obtain ⟨enq, push, tx, log, buffer, txq, line⟩ := h
  have onward : t.lineOut ++ t.txq = s.lineOut ++ s.txq ++ push := by
    rw [line, List.append_assoc, ← txq, List.append_assoc]
  refine ⟨?_, ?_, ?_⟩
  · calc t.lineOut ++ t.txq ++ t.unpushed
        = s.lineOut ++ s.txq ++ s.unpushed ++ enq := by
          rw [onward, List.append_assoc, ← buffer, List.append_assoc, List.append_assoc,
            List.append_assoc]
      _ = t.enqueuedBytes := by rw [F.enqueued, log.enq]
  · rw [onward, F.pushed, log.push]
  · rw [line, log.tx, ← F.sent]

/-! ### The buffer's bytes that no pass has pushed -/

theorem unpushed_eq_queued (h : s.afterPush = false) : s.unpushed = s.queued := by
  simp [State.unpushed, h]

theorem unpushed_eq_tail (h : s.afterPush = true) : s.unpushed = s.queued.tail := by
  simp [State.unpushed, h]

/-- The unpushed bytes stay while the queue does and no pass comes to or leaves its S4. -/
theorem unpushed_congr (hm : s.mstate.afterPush = t.mstate.afterPush)
    (hh : s.hstate.afterPush = t.hstate.afterPush) (hq : t.queued = s.queued) :
    t.unpushed = s.unpushed := by
  unfold State.unpushed State.afterPush
  rw [hm, hh, hq]

/-- A command that begins, or stands at a label before any pass, is not between S3 and S4 of one. -/
theorem mstate_afterPush_of_begins {m : MState} (h : s.Begins ∨ s.mstate = m) (hm : m.afterPush = false) :
    s.mstate.afterPush = false :=
  h.elim (fun hb => congrArg MState.afterPush hb.1) fun he => he ▸ hm

/-- With the handler at its start, only the mainline's own pass can stand between S3 and S4. -/
theorem afterPush_eq_mstate (h : s.hstate = .drain .s1) : s.afterPush = s.mstate.afterPush := by
  rw [State.afterPush, h]
  exact Bool.or_false _

/-- With no pass of the mainline between S3 and S4, only the handler's can stand there. -/
theorem afterPush_eq_hstate (h : s.mstate.afterPush = false) : s.afterPush = s.hstate.afterPush := by
  rw [State.afterPush, h]
  exact Bool.false_or _

theorem Inv.afterPush_main (I : Inv s) (m : s.Main) : s.afterPush = s.mstate.afterPush :=
  afterPush_eq_mstate (I.handler_start m)

/-- While the interrupt is enabled, no pass of the mainline stands between S3 and S4 (R106). -/
theorem Inv.mstate_afterPush (I : Inv s) (hi : s.ie = true) : s.mstate.afterPush = false := by
  cases hm : s.mstate with
  | primeP2 =>
    obtain ⟨-, -, h0, -⟩ := I.mainline_at hm
    exact absurd (h0.symm.trans hi) (by decide)
  | drain =>
    obtain ⟨-, -, h0, -⟩ := I.mainline_at hm
    exact absurd (h0.symm.trans hi) (by decide)
  | idle | enqbS1 | enqbS2 | enqbS3 | enqbS4 | primeP1 | primeP3 => rfl

theorem Inv.afterPush_hand (I : Inv s) (m : s.Hand) : s.afterPush = s.hstate.afterPush :=
  afterPush_eq_hstate (I.mstate_afterPush (I.hand_enabled m).2)

/-- A mainline `DRAIN` at a label, the first one at its start, is between S3 and S4 where the label is. -/
theorem mstate_afterPush_of_drainAt (h : s.DrainAt d) : s.mstate.afterPush = d.afterPush := by
  obtain ⟨hb, -, rfl⟩ | hm := h
  · rw [hb.1]; rfl
  · rw [hm]; rfl

theorem PassExits.not_afterPush (h : PassExits s d) : d.afterPush = false := by
  cases h <;> rfl

/-! ### The flow in each step -/

/-- A step of a drain pass: S3 pushes the oldest byte, and S4 takes it off the queue, where it no longer counted. -/
theorem Inv.passGoes_flows (I : Inv s) (hk : s.PassKnows d) (h : PassGoes s d d' t)
    (hs : s.afterPush = d.afterPush) {m : MState} {x : HState}
    (ht : State.afterPush { t with mstate := m, hstate := x } = d'.afterPush) :
    Flows s { t with mstate := m, hstate := x } := by
  cases h with
  | ready | nonempty =>
    exact .nothing (logs_nothing rfl) rfl rfl ((unpushed_eq_queued ht).trans (unpushed_eq_queued hs).symm)
  | push b hr hb h =>
    refine .mk [] [b] [] (logs_of_hist [.push b] rfl) ?_ rfl (List.append_nil _).symm
    have hq := queued_pop I.wc_lt I.rc_lt hk.2 hb
    rw [unpushed_eq_queued hs, unpushed_eq_tail ht, List.append_nil]
    show s.queued = b :: s.queued.tail
    rw [hq, List.tail_cons]
  | advance b =>
    refine .nothing (logs_nothing rfl) rfl rfl ?_
    rw [unpushed_eq_queued ht, unpushed_eq_tail hs, queued_pop I.wc_lt I.rc_lt hk.1 hk.2]
    rfl

/-- What S3 stores in slot `wc` is not queued yet (R57). -/
theorem Inv.queued_store (I : Inv s) (b : Byte) : (memWrite s s.wc b).queued = s.queued :=
  List.filterMap_congr fun _ hk =>
    Memory.read_write_other _ (slot_ne_write I.wc_lt I.rc_lt (List.mem_range.mp hk)).symm b

/-- `ENQB` S4 puts its byte at the queue's end. -/
theorem Inv.publish_flows (I : Inv s) (m : s.Main) {b : Byte} (hb : s.Fetches (.enqb b))
    {r : Option Nat} {n : Nat} (hs : s.mstate = .enqbS4 r n) :
    Flows s ({ s with wc := n }.log (.enq b)).complete := by
  obtain ⟨⟨b', ⟨-, hb', hn, -⟩, hread⟩, hne, -⟩ := I.mainline_at hs
  obtain rfl : n = s.next s.wc := hn
  cases hb.unique hb'
  have hq : State.queued { s with wc := s.next s.wc } = s.queued ++ [b] :=
    queued_publish I.wc_lt I.rc_lt hne hread
  have ha : s.afterPush = false := by rw [I.afterPush_main m, hs]; rfl
  have ha' : State.afterPush ({ s with wc := s.next s.wc }.log (.enq b)).complete = false :=
    afterPush_eq_mstate (I.handler_start m)
  refine .mk [b] [] [] (logs_of_hist [.enq b] rfl) ?_ (List.append_nil _) (List.append_nil _).symm
  rw [unpushed_eq_queued ha, unpushed_eq_queued ha']
  exact hq.symm

/-- A fault moves nothing (R130). -/
theorem raise_flows (hf : s.fault = none) (r : FaultRecord) : Flows s (s.raise r) := by
  rw [State.raise_of_none hf]
  exact .nothing (logs_nothing rfl) rfl rfl (unpushed_congr rfl rfl rfl)

/-- `LINE` sends the peripheral's oldest byte (R118). -/
theorem transmit_flows {b : Byte} {rest : List Byte} (h : s.txq = b :: rest) :
    Flows s (transmit s b rest) := by
  have htxq : s.txq ++ [] = [b] ++ rest := by simp [h]
  cases hc : setsTc s.params.tcPolicy rest with
  | true =>
    rw [transmit_setting hc]
    exact .mk [] [] [b] (logs_of_hist [.tx b, .tcSet] (List.append_assoc ..)) (List.append_nil _) htxq rfl
  | false =>
    rw [transmit_leaving hc]
    exact .mk [] [] [b] (logs_of_hist [.tx b] rfl) (List.append_nil _) htxq rfl

/-- Every atomic step lets the bytes flow in order. -/
theorem Inv.flows (I : Inv s) (h : Micro s turn t) : Flows s t := by
  cases h with
  | raise m | primeRaise m | drainRaise m | handlerRaise m => exact raise_flows m.fault _
  | cfg _ _ hi =>
    exact .nothing (logs_nothing rfl) rfl rfl (unpushed_congr (congrArg MState.afterPush hi) rfl rfl)
  | enqbDropTruncated _ b _ hs =>
    exact .nothing (logs_of_hist [.drop b] rfl) rfl rfl
      (unpushed_congr (mstate_afterPush_of_begins hs rfl) rfl rfl)
  | enqbSnapshot _ _ _ hs | enqbClaim _ _ _ hs | primeDisable _ _ hs =>
    exact .nothing (logs_nothing rfl) rfl rfl (unpushed_congr (mstate_afterPush_of_begins hs rfl) rfl rfl)
  | enqbDropFull _ b _ _ _ hs =>
    exact .nothing (logs_of_hist [.drop b] rfl) rfl rfl
      (unpushed_congr ((congrArg MState.afterPush hs).trans rfl) rfl rfl)
  | enqbFits _ _ _ _ _ hs | primeEnable _ _ hs =>
    exact .nothing (logs_nothing rfl) rfl rfl (unpushed_congr ((congrArg MState.afterPush hs).trans rfl) rfl rfl)
  | enqbStore _ b _ _ _ hs =>
    exact .nothing (logs_nothing rfl) rfl rfl
      (unpushed_congr ((congrArg MState.afterPush hs).trans rfl) rfl (I.queued_store b))
  | enqbPublish m _ hb _ _ hs => exact I.publish_flows m hb hs
  | enqe _ _ hs | ien _ _ _ hs | empty _ _ hs | occ _ _ hs =>
    exact .nothing (logs_nothing rfl) rfl rfl (unpushed_congr (congrArg MState.afterPush hs.1) rfl rfl)
  | primePass m _ d d' s' hs h =>
    obtain ⟨-, -, -, hk⟩ := I.mainline_at hs
    exact I.passGoes_flows hk h (by rw [I.afterPush_main m, hs]; rfl)
      (afterPush_eq_mstate (h.hstate.trans (I.handler_start m)))
  | primeExit _ _ d hs h =>
    exact .nothing (logs_nothing rfl) rfl rfl
      (unpushed_congr ((congrArg MState.afterPush hs).trans h.not_afterPush) rfl rfl)
  | drainPass m _ d d' s' hs h =>
    obtain ⟨-, -, hk⟩ := I.drain_at hs
    exact I.passGoes_flows hk h ((I.afterPush_main m).trans (mstate_afterPush_of_drainAt hs))
      (afterPush_eq_mstate (h.hstate.trans (I.handler_start m)))
  | drainExit _ _ d hs h =>
    exact .nothing (logs_nothing rfl) rfl rfl
      (unpushed_congr ((mstate_afterPush_of_drainAt hs).trans h.not_afterPush) rfl rfl)
  | handlerPass m d d' s' hs h =>
    obtain ⟨-, hi, -, hk⟩ := I.handler_at m hs
    exact I.passGoes_flows hk h (by rw [I.afterPush_hand m, hs]; rfl)
      (afterPush_eq_hstate (by rw [h.keepsMainline.mstate, I.mstate_afterPush hi]))
  | handlerExit _ d hs h =>
    exact .nothing (logs_nothing rfl) rfl rfl
      (unpushed_congr rfl ((congrArg HState.afterPush hs).trans h.not_afterPush) rfl)
  | clrf _ hs =>
    exact .nothing (logs_of_hist [.tcClr] rfl) rfl rfl
      (unpushed_congr rfl ((congrArg HState.afterPush hs).trans rfl) rfl)
  | iret _ hs =>
    exact .nothing (logs_of_hist [.ret] rfl) rfl rfl
      (unpushed_congr rfl ((congrArg HState.afterPush hs).trans rfl) rfl)
  | entry m =>
    exact .nothing (logs_of_hist [.enter] rfl) rfl rfl
      (unpushed_congr rfl (congrArg HState.afterPush (I.handler_start m)) rfl)
  | line _ _ _ _ h => exact transmit_flows h

/-- Reading the schedule disturbs no byte. -/
theorem Fifo.spend (F : Fifo s) : Fifo s.spend := ⟨F.enqueued, F.pushed, F.sent⟩

/-- Settles O9: with the invariant, every atomic step lets the bytes flow. -/
theorem stepKeepsFifoOrder : Obligations.StepKeepsFifoOrder := by
  unfold Obligations.StepKeepsFifoOrder
  intro s t I F h
  exact (step_keeps (P := fun s => Inv s ∧ Fifo s) (fun _ ⟨I, F⟩ => ⟨I.spend, F.spend⟩)
    (fun _ _ _ ⟨I, F⟩ hm => ⟨I.micro hm, F.of_flows (I.flows hm)⟩) ⟨I, F⟩ h).2

end Sys2Proof.Machine
end

section
/-! PROOF. The buffer's storage and who steps (20_memory.md): an enabled turn that the schedule names is taken
(O24), empty and full by the occupancy (O34), and no unread byte is overwritten (O40). -/

namespace Sys2Proof.Machine

variable {s t : State}

/-! ### Which turn is taken -/

/-- No turn is enabled under a fault (R39). -/
theorem State.fault_of_enabled {turn : Turn} (h : s.enabled turn = true) : s.fault = none := by
  cases hf : s.fault with
  | none => rfl
  | some r => cases turn <;> simp [State.enabled, State.entryEnabled, hf] at h

/-- Whether a turn is enabled does not depend on the schedule. -/
@[simp] theorem State.enabled_with_sched (turn : Turn) (sched : List Turn) :
    State.enabled { s with sched := sched } turn = s.enabled turn := by
  cases turn <;> rfl

/-- Settles O24: the schedule decides among the enabled turns, and it disables none. -/
theorem everyEnabledTurnCanBeTaken : Obligations.EveryEnabledTurnCanBeTaken := by
  unfold Obligations.EveryEnabledTurnCanBeTaken
  refine ⟨fun s turn rest hp he => ?_, fun s turn => State.chosenTurn_enabled⟩
  have hc : State.chosenTurn { s with sched := turn :: rest } = some turn :=
    State.chosenTurn_named rfl (by rwa [State.enabled_with_sched])
  exact step_turn hp (State.fault_of_enabled he) hc

/-! ### Empty and full -/

/-- Nothing is queued exactly where the cursors meet (R52). -/
theorem occupancy_eq_zero_iff {c w r : Nat} (hw : w < c) (hr : r < c) : occupancy c w r = 0 ↔ w = r := by
  rw [occupancy_eq hw hr]
  split <;> omega

/-- The write cursor stands right before the read cursor exactly where `C - 1` bytes are queued (R52). -/
theorem nextCursor_eq_iff_occupancy {c w r : Nat} (hw : w < c) (hr : r < c) :
    nextCursor c w = r ↔ occupancy c w r = c - 1 := by
  rw [nextCursor_eq hw, occupancy_eq hw hr]
  split_ifs <;> omega

theorem nextCursor_ne_self {c w : Nat} (hc : 2 ≤ c) (hw : w < c) : nextCursor c w ≠ w := by
  rw [nextCursor_eq hw]
  split <;> omega

theorem State.isEmpty_iff : s.isEmpty = true ↔ s.wc = s.rc := beq_iff_eq.trans eq_comm

theorem State.isFull_iff : s.isFull = true ↔ nextCursor s.params.capacity s.wc = s.rc := beq_iff_eq

/-- Settles O34: `isEmpty` and `isFull` compare the cursors, and the occupancy counts from one to the other. -/
theorem emptyAndFullByOccupancy : Obligations.EmptyAndFullByOccupancy := by
  unfold Obligations.EmptyAndFullByOccupancy
  intro s hC hw hr
  have notFull (h : s.wc = s.rc) : s.isFull = false :=
    Bool.eq_false_iff.mpr fun hf => nextCursor_ne_self hC hw ((State.isFull_iff.mp hf).trans h.symm)
  exact ⟨State.isEmpty_iff, State.isEmpty_iff.trans (occupancy_eq_zero_iff hw hr).symm, State.isFull_iff,
    State.isFull_iff.trans (nextCursor_eq_iff_occupancy hw hr), notFull⟩

/-! ### Storing a byte -/

/-- Everything `ENQB` can answer as a next state at its S3: the byte is stored, or it was issued by the wrong agent. -/
theorem exec_enqb_at_s3 {b : Byte} {r : Option Nat} {n : Nat} (hm : s.mstate = .enqbS3 r n)
    (h : exec (.enqb b) s = .next t) :
    t = (memWrite s s.wc b).goto (.enqbS4 r n) ∨ ∃ f, t = s.raise f := by
  obtain ⟨-, ⟨-, h⟩ | ⟨-, h⟩⟩ := issue_next h
  · simp only [hm, enqbS3] at h
    split at h
    case isTrue => cases h; exact .inl rfl
    case isFalse => cases h
  · exact .inr ⟨_, h⟩

/-- A fault leaves the queue as it is (R130). -/
theorem queued_raise (f : FaultRecord) : (s.raise f).queued = s.queued :=
  queued_congr (s.raise_wc f) (s.raise_rc f) (s.raise_params f) (s.raise_storage f)

/-- At S2 a snapshot that leaves room leaves it now too: `rc` can only have moved on since (R59). -/
theorem Inv.next_ne_rc_at_s2 (I : Inv s) {r n : Nat} (hm : s.mstate = .enqbS2 r n) (hne : n ≠ r) : n ≠ s.rc := by
  obtain ⟨⟨b, hb⟩, -, hr, ho⟩ := I.mainline_at hm
  obtain rfl : n = s.next s.wc := hb.next_eq
  exact next_ne_of_snapshot I.wc_lt hr I.rc_lt ho hne

/-- At S3 storing the byte leaves the queue as it is: slot `wc` is not queued (R167). -/
theorem Inv.queued_at_s3 (I : Inv s) {b : Byte} {r : Option Nat} {n : Nat} (hm : s.mstate = .enqbS3 r n)
    (h : exec (.enqb b) s = .next t) : t.queued = s.queued := by
  obtain rfl | ⟨f, rfl⟩ := exec_enqb_at_s3 hm h
  · exact I.queued_store b
  · exact queued_raise f

/-- Settles O40: `MainlineKnows` relates the snapshot to `rc`, and `slot_ne_write` keeps slot `wc` off the queue. -/
theorem noUnreadByteIsOverwritten : Obligations.NoUnreadByteIsOverwritten := by
  unfold Obligations.NoUnreadByteIsOverwritten
  exact fun s I => ⟨fun _ _ => I.next_ne_rc_at_s2, fun _ _ _ _ => slot_ne_write I.wc_lt I.rc_lt,
    fun _ _ _ _ => I.queued_at_s3⟩

end Sys2Proof.Machine
end

section
/-! PROOF. The encoding (30_encoding.md): a word decodes to a command exactly when it is that command's word, hence
the round trip (O1), the legal words (O2) and the written-out words (O3); the assembler on its own lines (O4); the
commands the interrupt context may not issue (O28). -/

namespace Sys2Proof.Machine

open Sys2Proof.Laws

variable {w : Word} {i j : Instr} {s : State}

/-! ### A word and its fields (R66, R74) -/

/-- The three fields are all of a word: no bit lies outside them. -/
theorem append_fields (w : Word) : opField w ++ zField w ++ immField w = w := by
  refine BitVec.eq_of_getLsbD_eq fun k hk => ?_
  simp only [opField, zField, immField, BitVec.getLsbD_append, BitVec.getLsbD_extractLsb']
  split_ifs with himm hz
  · simp [himm]
  · simp [hz, show 8 + (k - 8) = k by omega]
  · simp [show k - 8 - 4 < 4 by omega, show 12 + (k - 8 - 4) = k by omega]

theorem encodedFields (i : Instr) : EncodedFields.Statement i := by
  cases i with
  | cfg => exact EncodedFields.cfg
  | enqb b => exact EncodedFields.enqb b
  | enqe => exact EncodedFields.enqe
  | prime => exact EncodedFields.prime
  | drain => exact EncodedFields.drain
  | ien e => exact EncodedFields.ien e
  | empty => exact EncodedFields.empty
  | occ => exact EncodedFields.occ
  | clrf => exact EncodedFields.clrf
  | iret => exact EncodedFields.iret

/-- A command's word is the one with that command's fields. -/
theorem encode_eq_iff_fields :
    encode i = w ↔ opField w = i.opNumber ∧ zField w = 0#4 ∧ immField w = i.operandByte := by
  constructor
  · rintro rfl
    exact encodedFields i
  · rintro ⟨hop, hz, himm⟩
    rw [encode, ← hop, ← hz, ← himm, append_fields]

/-! ### What each check of the decoder lets through (R67 to R72, R78) -/

theorem noOperand_eq_ok : noOperand w j = .ok i ↔ i = j ∧ immField w = 0#8 := by
  unfold noOperand
  split
  case isTrue h => simp [h, eq_comm]
  case isFalse h => simp [h]

theorem fields_of_noOperand (h : noOperand w j = .ok i) (hop : opField w = j.opNumber)
    (hj : j.operandByte = 0#8) : opField w = i.opNumber ∧ immField w = i.operandByte := by
  obtain ⟨rfl, himm⟩ := noOperand_eq_ok.mp h
  exact ⟨hop, himm.trans hj.symm⟩

/-- The operand byte of `IEN e`: bits 7 to 1 zero, bit 0 is `e` (R69). -/
theorem eq_enableByte_iff (b : Byte) (e : Bool) :
    b = (Instr.ien e).operandByte ↔ b.extractLsb' 1 7 = 0#7 ∧ b.getLsbD 0 = e := by
  revert b e; decide

theorem enableOperand_eq_ok :
    enableOperand w = .ok i ↔ ∃ e, i = .ien e ∧ immField w = (Instr.ien e).operandByte := by
  simp only [eq_enableByte_iff]
  unfold enableOperand
  split
  case isTrue h => simp [h, eq_comm]
  case isFalse h => simp [h]

/-- The operation number and the operand byte decide what `decodeOp` answers. -/
theorem decodeOp_eq_ok : decodeOp w = .ok i ↔ opField w = i.opNumber ∧ immField w = i.operandByte := by
  constructor
  · unfold decodeOp
    split <;> intro h
    case h_1 hop | h_3 hop | h_4 hop | h_5 hop | h_7 hop | h_8 hop | h_9 hop | h_10 hop =>
      exact fields_of_noOperand h (BitVec.eq_of_toNat_eq hop) rfl
    case h_2 hop =>
      cases h
      exact ⟨BitVec.eq_of_toNat_eq hop, rfl⟩
    case h_6 hop =>
      obtain ⟨e, rfl, himm⟩ := enableOperand_eq_ok.mp h
      exact ⟨BitVec.eq_of_toNat_eq hop, himm⟩
    case h_11 => cases h
  · rintro ⟨hop, himm⟩
    unfold decodeOp
    rw [hop]
    cases i with
    | enqb b => exact congrArg (Except.ok <| Instr.enqb ·) himm
    | ien e => exact enableOperand_eq_ok.mpr ⟨e, rfl, himm⟩
    | _ => exact noOperand_eq_ok.mpr ⟨rfl, himm⟩

/-- A word decodes to a command exactly when it is that command's word. -/
theorem decode_eq_ok_iff : decode w = .ok i ↔ encode i = w := by
  rw [encode_eq_iff_fields, ← and_left_comm, ← decodeOp_eq_ok]
  unfold decode
  split
  case isTrue hz => simp [hz]
  case isFalse hz => simp [hz]

@[simp] theorem decode_encode (i : Instr) : decode (encode i) = .ok i := decode_eq_ok_iff.mpr rfl

/-- Settles O1. -/
theorem decodeInvertsEncode : Obligations.DecodeInvertsEncode := by
  unfold Obligations.DecodeInvertsEncode
  exact ⟨decode_encode, fun _ _ => decode_eq_ok_iff.mp⟩

/-! ### The words of the opcode table -/

theorem toNat_encode_enqb (b : Byte) : (encode (.enqb b)).toNat = 0x2000 + b.toNat := by
  simp only [encode, Instr.opNumber, Instr.operandByte, BitVec.toNat_append]
  rw [← Nat.shiftLeft_add_eq_or_of_lt b.isLt]
  rfl

/-- The words of `ENQB` are an interval, one for each byte (R68). -/
theorem exists_encode_enqb_iff : (∃ b, encode (.enqb b) = w) ↔ 0x2000 ≤ w.toNat ∧ w.toNat ≤ 0x20FF := by
  constructor
  · rintro ⟨b, rfl⟩
    rw [toNat_encode_enqb]
    omega
  · rintro ⟨hlo, hhi⟩
    refine ⟨BitVec.ofNat 8 (w.toNat - 0x2000), BitVec.eq_of_toNat_eq ?_⟩
    rw [toNat_encode_enqb, BitVec.toNat_ofNat, Nat.mod_eq_of_lt (by omega)]
    omega

/-- Settles O2: the legal words are the values of `encode`, listed command by command. -/
theorem legalWordsAreTheTablesWords : Obligations.LegalWordsAreTheTablesWords := by
  unfold Obligations.LegalWordsAreTheTablesWords
  intro w
  simp only [decode_eq_ok_iff]
  constructor
  · rintro ⟨i, rfl⟩
    cases i with
    | enqb b => exact .inr (.inl (exists_encode_enqb_iff.mp ⟨b, rfl⟩))
    | ien e => cases e <;> decide
    | _ => decide
  · rintro (rfl | hb | rfl | rfl | rfl | rfl | rfl | rfl | rfl | rfl | rfl)
    case inr.inl =>
      obtain ⟨b, hb⟩ := exists_encode_enqb_iff.mpr hb
      exact ⟨.enqb b, hb⟩
    exacts [⟨.cfg, rfl⟩, ⟨.enqe, rfl⟩, ⟨.prime, rfl⟩, ⟨.drain, rfl⟩, ⟨.ien false, rfl⟩, ⟨.ien true, rfl⟩,
      ⟨.empty, rfl⟩, ⟨.occ, rfl⟩, ⟨.clrf, rfl⟩, ⟨.iret, rfl⟩]

/-- Settles O3: each legal word listed is its command's word; the illegal ones are evaluated. -/
theorem tableWordsDecodeAsWritten : Obligations.TableWordsDecodeAsWritten := by
  unfold Obligations.TableWordsDecodeAsWritten
  exact ⟨decode_encode .cfg, decode_encode (.enqb 0x41#8), decode_encode .enqe, decode_encode .prime,
    decode_encode .drain, decode_encode (.ien true), decode_encode .empty, decode_encode .occ,
    decode_encode .clrf, decode_encode .iret, by decide⟩

/-! ### The assembler on the lines it prints (R74) -/

theorem digitValue_hexDigit {v : Nat} (hv : v < 16) : digitValue 16 (hexDigit v) = some v := by
  revert v; decide

theorem readDigits_hexDigit {v : Nat} (hv : v < 16) (a : Nat) (cs : List Char) :
    readDigits 16 a (hexDigit v :: cs) = readDigits 16 (a * 16 + v) cs := by
  simp only [readDigits, digitValue_hexDigit hv]

theorem readNumber_hexDigit {v : Nat} (hv : v < 16) (cs : List Char) :
    readNumber 16 (hexDigit v :: cs) = some (readDigits 16 v cs) := by
  simp [readNumber, digitValue_hexDigit hv, readDigits_hexDigit hv]

/-- The two hexadecimal digits printed for a byte read back as that byte. -/
theorem readByte_hex (b : Byte) :
    readByte ['0', 'x', hexDigit (b.toNat / 16), hexDigit (b.toNat % 16)] = some (b, []) := by
  have hb : b.toNat < 256 := b.isLt
  change asByte (readNumber 16 _) = _
  rw [readNumber_hexDigit (by omega), readDigits_hexDigit (by omega), Nat.div_add_mod']
  simp [asByte, readDigits, hb]

theorem byteLine_of_readByte {rest cs rest' : List Char} {b : Byte} (ho : operandOf rest = some cs)
    (hb : readByte cs = some (b, rest')) : byteLine rest = bare rest' [.enqb b] := by
  simp [byteLine, ho, hb]

/-- Settles O4: only the line of `ENQB` has a part that is not literal text, and `readByte_hex` reads it. -/
theorem assemblerReadsItsLines : Obligations.AssemblerReadsItsLines := by
  unfold Obligations.AssemblerReadsItsLines
  intro i
  cases i with
  | enqb b =>
    calc assembleLine (asmLine (.enqb b))
      _ = byteLine ((asmLine (.enqb b)).drop 4) := rfl
      _ = bare [] [.enqb b] := byteLine_of_readByte rfl (readByte_hex b)
      _ = some [.enqb b] := rfl
  | ien e => cases e <;> rfl
  | _ => rfl

/-! ### Who may issue a command (R73, R148) -/

theorem issuableIn_interrupt_iff :
    i.issuableIn .interrupt = true ↔ i = .drain ∨ i = .clrf ∨ i = .iret := by
  cases i <;> simp [Instr.issuableIn]

/-- Every command is issued first, so the wrong agent gets `F_CONTEXT` and nothing else. -/
theorem exec_wrong_context (hf : s.fault = none) (hi : i.issuableIn s.ctx = false) :
    exec i s = .next { s with fault := some (.context s.pc (encode i)) } := by
  rw [← State.raise_of_none hf]
  cases i <;> exact issue_wrong hf hi

/-- Settles O28. -/
theorem handlerMayIssueOnlyItsCommands : Obligations.HandlerMayIssueOnlyItsCommands := by
  unfold Obligations.HandlerMayIssueOnlyItsCommands
  intro s i hf hc hdrain hclrf hiret
  have hi : ¬ i.issuableIn s.ctx = true := by
    rw [hc, issuableIn_interrupt_iff]
    simp [hdrain, hclrf, hiret]
  exact exec_wrong_context hf (Bool.eq_false_iff.mpr hi)

end Sys2Proof.Machine
end

section
/-! PROOF. What each mainline command answers at each of its positions (40_producer.md): the commands of one step
(O31, O32, O33), every step of `ENQB` (O35, O36, O37), of `PRIME` (O41, O42) and of a mainline `DRAIN` (O43), and the
step of the machine that runs them (O23). -/

namespace Sys2Proof.Machine

variable {s s' : State} {m : MState} {i : Instr} {body : StepOutcome} {b : Byte} {d d' : DrainLabel}

/-! ### Issuing a command in the mainline -/

theorem State.InMainline.fault (h : s.InMainline m) : s.fault = none := h.1

theorem State.InMainline.ctx (h : s.InMainline m) : s.ctx = .mainline := h.2.1

theorem State.InMainline.mstate (h : s.InMainline m) : s.mstate = m := h.2.2

theorem State.AtCommand.mstate (h : s.AtCommand) : s.mstate = .idle := h.1.mstate

/-- A mainline command is issued without a fault wherever the mainline stands (R148). -/
theorem State.InMainline.issue_eq (h : s.InMainline m) (hi : i.issuableIn .mainline = true) :
    issue i s body = body :=
  issue_ok h.fault (by rwa [h.ctx])

/-- Once configured, a command of one step runs its body (R80). -/
theorem State.AtCommand.oneStep_eq (h : s.AtCommand) (hi : i.issuableIn .mainline = true) :
    oneStep i s body = body := by
  obtain ⟨h, hcfg⟩ := h
  exact oneStep_ok h.fault (by rwa [h.ctx]) h.mstate (.inl hcfg)

/-- A command that completes in its first step only advances `pc`. -/
theorem State.complete_of_idle (h : s.mstate = .idle) : s.complete = { s with pc := s.pc + 1 } := by
  unfold State.complete
  rw [← h]

/-! ### The commands of one step -/

theorem exec_cfg_unconfigured (h : s.InMainline .idle) (hc : s.cfg = false) :
    exec .cfg s = .next { s with txen := true, ie := true, cfg := true, pc := s.pc + 1 } := by
  calc exec .cfg s
    _ = if s.cfg then .next (s.raise (.reconfigure s.pc)) else .next s.configure.complete :=
      oneStep_ok h.fault (by rw [h.ctx]; rfl) h.mstate (.inr rfl)
    _ = .next s.configure.complete := if_neg (by simp [hc])
    _ = _ := congrArg _ (State.complete_of_idle (s := s.configure) h.mstate)

theorem exec_enqe_atCommand (h : s.AtCommand) :
    exec .enqe s = .next { s with trunc := false, pc := s.pc + 1 } :=
  (h.oneStep_eq rfl).trans (congrArg _ (State.complete_of_idle (s := s.setTrunc false) h.mstate))

theorem exec_ien_atCommand (h : s.AtCommand) (e : Bool) :
    exec (.ien e) s = .next { s with ie := e, pc := s.pc + 1 } :=
  (h.oneStep_eq rfl).trans (congrArg _ (State.complete_of_idle (s := s.setEnable e) h.mstate))

theorem exec_empty_atCommand (h : s.AtCommand) :
    exec .empty s = .next { s with rsp := some (zext16Bool s.isEmpty), pc := s.pc + 1 } :=
  (h.oneStep_eq rfl).trans
    (congrArg _ (State.complete_of_idle (s := { s with rsp := some (zext16Bool s.isEmpty) }) h.mstate))

theorem exec_occ_atCommand (h : s.AtCommand) :
    exec .occ s = .next { s with rsp := some (zext16 s.occ), pc := s.pc + 1 } :=
  (h.oneStep_eq rfl).trans
    (congrArg _ (State.complete_of_idle (s := { s with rsp := some (zext16 s.occ) }) h.mstate))

/-- Settles O31. -/
theorem cfgConfigures : Obligations.CfgConfigures := by
  unfold Obligations.CfgConfigures
  exact ⟨by decide, fun s => exec_cfg_unconfigured⟩

/-- Settles O32. -/
theorem enqeAndIenWriteTheirBit : Obligations.EnqeAndIenWriteTheirBit := by
  unfold Obligations.EnqeAndIenWriteTheirBit
  exact fun s h => ⟨exec_enqe_atCommand h, exec_ien_atCommand h⟩

/-- A capacity that is not refused fits `zext_16`: every occupancy is below it (R5, R131). -/
theorem capacity_le_of_check {p : Params} (h : p.check = none) : p.capacity ≤ 65536 := by
  unfold Params.check at h
  split at h
  case isTrue => cases h
  case isFalse hC => omega

/-- Settles O33: `OCC`'s 16 bits hold the occupancy exactly, because it lies below `C ≤ 65536`. -/
theorem queriesAnswerExactly : Obligations.QueriesAnswerExactly := by
  unfold Obligations.QueriesAnswerExactly
  intro s h hp hw hr
  have hlt : s.occ < 2 ^ 16 := (occupancy_lt hw hr).trans_le (capacity_le_of_check hp)
  refine ⟨?_, zext16 s.occ, exec_occ_atCommand h, ?_⟩
  · simpa [zext16Bool, State.isEmpty] using exec_empty_atCommand h
  · calc (zext16 s.occ).toNat
      _ = s.occ := by rw [zext16, BitVec.toNat_ofNat, Nat.mod_eq_of_lt hlt]
      _ = _ := occupancy_eq hw hr

/-! ### `ENQB` at each label -/

theorem exec_enqb_at_s1 (h : s.AtCommand ∨ s.InMainline .enqbS1) : exec (.enqb b) s = enqbS1 b s := by
  rcases h with ⟨h, hcfg⟩ | h
  · refine (h.issue_eq rfl).trans ?_
    rw [h.mstate]
    exact prologue_ok (.inl hcfg)
  · refine (h.issue_eq rfl).trans ?_
    rw [h.mstate]

theorem exec_enqb_of_s2 {r n : Nat} (h : s.InMainline (.enqbS2 r n)) :
    exec (.enqb b) s = enqbS2 b r n s := by
  refine (h.issue_eq rfl).trans ?_
  rw [h.mstate]

theorem exec_enqb_of_s3 {r : Option Nat} {n : Nat} (h : s.InMainline (.enqbS3 r n)) :
    exec (.enqb b) s = enqbS3 b r n s := by
  refine (h.issue_eq rfl).trans ?_
  rw [h.mstate]

theorem exec_enqb_of_s4 {r : Option Nat} {n : Nat} (h : s.InMainline (.enqbS4 r n)) :
    exec (.enqb b) s = .next (({ s with wc := n }.log (.enq b)).complete) := by
  refine (h.issue_eq rfl).trans ?_
  rw [h.mstate]
  rfl

/-- S1 under NONBLOCKING drops the byte of a call that is truncated (R82). -/
theorem enqbS1_truncated (hp : s.params.enqPolicy = .nonblocking) (ht : s.trunc = true) :
    enqbS1 b s = .next (dropByte b s) := by
  simp [enqbS1, hp, ht]

/-- S1 under NONBLOCKING takes the snapshot of both cursors (R82). -/
theorem enqbS1_snapshot (hp : s.params.enqPolicy = .nonblocking) (ht : s.trunc = false) :
    enqbS1 b s = .next (s.goto (.enqbS2 s.rc (s.next s.wc))) := by
  simp [enqbS1, hp, ht]

/-- S1 under BLOCKING goes on where there is room (R83). -/
theorem enqbS1_claim (hp : s.params.enqPolicy = .blocking) (h : s.isFull = false) :
    enqbS1 b s = .next (s.goto (.enqbS3 none (s.next s.wc))) := by
  simp [enqbS1, hp, h]

/-- S1 under BLOCKING makes no step while the buffer is full (R83). -/
theorem enqbS1_hold (hp : s.params.enqPolicy = .blocking) (h : s.isFull = true) :
    enqbS1 b s = .next s := by
  simp [enqbS1, hp, h]

/-- S2 finds the buffer full as of the snapshot (R82). -/
theorem enqbS2_full {r n : Nat} (hp : s.params.enqPolicy = .nonblocking) (h : n = r) :
    enqbS2 b r n s = .next (dropByte b (s.setTrunc true)) := by
  simp [enqbS2, hp, h]

/-- S2 finds room as of the snapshot (R82). -/
theorem enqbS2_fits {r n : Nat} (hp : s.params.enqPolicy = .nonblocking) (h : n ≠ r) :
    enqbS2 b r n s = .next (s.goto (.enqbS3 (some r) n)) := by
  simp [enqbS2, hp, h]

/-- S3 stores the byte in slot `wc` (R82, R83). -/
theorem enqbS3_store {r : Option Nat} {n : Nat} (h : s.wc < s.params.capacity) :
    enqbS3 b r n s = .next ((memWrite s s.wc b).goto (.enqbS4 r n)) :=
  if_pos h

/-- Settles O35. -/
theorem enqbNonblockingSteps : Obligations.EnqbNonblockingSteps := by
  unfold Obligations.EnqbNonblockingSteps
  exact fun s b hp =>
    ⟨fun h ht => (exec_enqb_at_s1 h).trans (enqbS1_truncated hp ht),
     fun h ht => (exec_enqb_at_s1 h).trans (enqbS1_snapshot hp ht),
     fun r n h hn => (exec_enqb_of_s2 h).trans (enqbS2_full hp hn),
     fun r n h hn => (exec_enqb_of_s2 h).trans (enqbS2_fits hp hn)⟩

/-- At S1 of the `ENQB` it fetches, the mainline holds while the buffer is full (R83). -/
theorem State.holds_of_full (h : s.AtCommand ∨ s.InMainline .enqbS1) (hb : s.Fetches (.enqb b))
    (hp : s.params.enqPolicy = .blocking) (hfull : s.isFull = true) : s.holds = true := by
  obtain ⟨w, hw, hd⟩ := hb
  have hat : s.atEnqb = true := by simp [State.atEnqb, hw, hd, isEnqb]
  have hs1 : s.atEnqbS1 = true := by
    rcases h with ⟨⟨-, -, hm⟩, hcfg⟩ | ⟨-, -, hm⟩
    · simp [State.atEnqbS1, hm, hcfg, hat]
    · simp [State.atEnqbS1, hm, hat]
  simp [State.holds, hp, hs1, hfull]

/-- Settles O36. -/
theorem enqbBlockingFirstStep : Obligations.EnqbBlockingFirstStep := by
  unfold Obligations.EnqbBlockingFirstStep
  refine fun s b hp h => ⟨fun hroom => ?_, fun hfull => ?_, fun hfull hb => ?_⟩
  · have hroom : s.isFull = false := Bool.eq_false_iff.mpr (mt State.isFull_iff.mp hroom)
    exact (exec_enqb_at_s1 h).trans (enqbS1_claim hp hroom)
  · exact (exec_enqb_at_s1 h).trans (enqbS1_hold hp (State.isFull_iff.mpr hfull))
  · have hh : s.holds = true := State.holds_of_full h hb hp (State.isFull_iff.mpr hfull)
    simp [State.enabled, hh]

/-- Settles O37. -/
theorem enqbWritesThenPublishes : Obligations.EnqbWritesThenPublishes := by
  unfold Obligations.EnqbWritesThenPublishes
  refine fun s b r n => ⟨fun h hw => ⟨Memory.write s.storage s.wc b, ?_, ?_, fun j hj => ?_⟩,
    exec_enqb_of_s4⟩
  · exact (exec_enqb_of_s3 h).trans (enqbS3_store hw)
  · exact Memory.read_write_self _ _ _
  · exact Memory.read_write_other _ hj.symm b

/-! ### `PRIME` and the mainline's `DRAIN` at each label -/

theorem exec_prime_at_p1 (h : s.AtCommand ∨ s.InMainline .primeP1) :
    exec .prime s = .next ((s.setEnable false).goto (.primeP2 .s1)) := by
  rcases h with ⟨h, hcfg⟩ | h
  · refine (h.issue_eq rfl).trans ?_
    rw [h.mstate]
    exact prologue_ok (.inl hcfg)
  · refine (h.issue_eq rfl).trans ?_
    rw [h.mstate]
    rfl

theorem exec_prime_of_p2 (h : s.InMainline (.primeP2 d)) : exec .prime s = primeP2 d s := by
  refine (h.issue_eq rfl).trans ?_
  rw [h.mstate]

theorem exec_prime_of_p3 (h : s.InMainline .primeP3) :
    exec .prime s = .next (s.setEnable true).complete := by
  refine (h.issue_eq rfl).trans ?_
  rw [h.mstate]
  rfl

/-- A mainline `DRAIN` makes a step of its pass, S1 at the start of the command (R87). -/
theorem exec_drain_of_main (hf : s.fault = none) (hc : s.ctx = .mainline) (h : s.DrainAt d) :
    exec .drain s = drainMainlinePass d s := by
  have hissue : exec .drain s = drainMainline s := by
    refine (issue_ok hf (by rw [hc]; rfl)).trans ?_
    rw [hc]
  rw [hissue]
  unfold drainMainline
  rcases h with ⟨⟨hm, hcfg⟩, hie, rfl⟩ | hm
  · simp [hm, prologue_ok (.inl hcfg), hie]
  · simp [hm]

theorem exec_prime_goes (h : s.InMainline (.primeP2 d)) (hp : PassGoes s d d' s') :
    exec .prime s = .next (s'.goto (.primeP2 d')) :=
  (exec_prime_of_p2 h).trans (runPass_goes hp)

theorem exec_prime_exits (h : s.InMainline (.primeP2 d)) (hp : PassExits s d) :
    exec .prime s = .next (s.goto .primeP3) :=
  (exec_prime_of_p2 h).trans (runPass_exits hp)

theorem exec_drain_goes (h : s.InMainline m) (hd : s.DrainAt d) (hp : PassGoes s d d' s') :
    exec .drain s = .next (s'.goto (.drain d')) :=
  (exec_drain_of_main h.fault h.ctx hd).trans (runPass_goes hp)

theorem exec_drain_exits (h : s.InMainline m) (hd : s.DrainAt d) (hp : PassExits s d) :
    exec .drain s = .next s.complete :=
  (exec_drain_of_main h.fault h.ctx hd).trans (runPass_exits hp)

/-- Settles O41. -/
theorem primeDisablesThenEnables : Obligations.PrimeDisablesThenEnables := by
  unfold Obligations.PrimeDisablesThenEnables
  exact fun s => ⟨exec_prime_at_p1, exec_prime_of_p3⟩

/-- Settles O42: each clause is one move or one exit of the pass. -/
theorem primePassSteps : Obligations.PrimePassSteps := by
  unfold Obligations.PrimePassSteps
  exact fun s =>
    ⟨fun h hr => exec_prime_goes h (.ready hr),
     fun h hr => exec_prime_exits h (.notReady hr),
     fun h he => exec_prime_exits h (.empty he),
     fun h hne => exec_prime_goes h (.nonempty hne),
     fun b h hlt hb hr => exec_prime_goes h (.push b hlt hb hr),
     fun b h => exec_prime_goes h (.advance b)⟩

/-- Settles O43: each clause is one move or one exit of the pass; the first two also where the command begins. -/
theorem mainlineDrainSteps : Obligations.MainlineDrainSteps := by
  unfold Obligations.MainlineDrainSteps
  intro s
  have at_s1 (h : s.AtCommand ∧ s.ie = false ∨ s.InMainline (.drain .s1)) :
      ∃ m, s.InMainline m ∧ s.DrainAt .s1 := by
    rcases h with ⟨⟨h, hcfg⟩, hie⟩ | h
    · exact ⟨_, h, .inl ⟨⟨h.mstate, hcfg⟩, hie, rfl⟩⟩
    · exact ⟨_, h, .inr h.mstate⟩
  refine ⟨fun h hr => ?_, fun h hr => ?_,
    fun h he => exec_drain_exits h (.inr h.mstate) (.empty he),
    fun h hne => exec_drain_goes h (.inr h.mstate) (.nonempty hne),
    fun b h hlt hb hr => exec_drain_goes h (.inr h.mstate) (.push b hlt hb hr),
    fun b h => exec_drain_goes h (.inr h.mstate) (.advance b)⟩
  · obtain ⟨m, hm, hd⟩ := at_s1 h
    exact exec_drain_goes hm hd (.ready hr)
  · obtain ⟨m, hm, hd⟩ := at_s1 h
    exact exec_drain_exits hm hd (.notReady hr)

/-! ### The step of the machine -/

theorem mainlineStep_of_fetch {w : Word} (h : s.fetch = some w) : mainlineStep s = runWord w s := by
  unfold mainlineStep
  rw [h]

theorem runWord_legal {w : Word} (h : decode w = .ok i) : runWord w s = exec i s := by
  unfold runWord
  rw [h]

/-- An illegal word at the start of a command raises `F_ILLEGAL` (R132). -/
theorem runWord_illegal {w : Word} {e : Illegal} (h : decode w = .error e) (hm : s.mstate = .idle) :
    runWord w s = .next (s.raise (.illegal s.pc w)) := by
  unfold runWord
  rw [h, hm]

/-- Without `ISR_ATOMIC_WRT_LINE` the handler's turn is one of its steps (R100). -/
theorem takeTurn_handler (h : s.params.isrAtomic = false) :
    takeTurn .handler s = exec s.hstate.command s :=
  if_neg (by simp [h])

/-- Without `ISR_ATOMIC_WRT_LINE` entry is a step of its own (R141). -/
theorem takeTurn_entry (h : s.params.isrAtomic = false) : takeTurn .entry s = .next s.enterInterrupt :=
  if_neg (by simp [h])

/-- Settles O23: `step` takes the chosen turn, and each turn's step is the one stated. -/
theorem stepRunsTheDecodedCommand : Obligations.StepRunsTheDecodedCommand := by
  unfold Obligations.StepRunsTheDecodedCommand
  intro s hp hf
  refine ⟨fun w i hc hw hd => ?_, fun w e hc hw hd hm => ?_, fun hc ha => ?_, fun hc ha => ?_,
    step_turn hp hf⟩
  · calc step s
      _ = mainlineStep s.spend := step_turn hp hf hc
      _ = runWord w s.spend := mainlineStep_of_fetch hw
      _ = exec i s.spend := runWord_legal hd
  · calc step s
      _ = mainlineStep s.spend := step_turn hp hf hc
      _ = runWord w s.spend := mainlineStep_of_fetch hw
      _ = .next (s.spend.raise (.illegal s.pc w)) := runWord_illegal hd hm
      _ = .next { s.spend with fault := some (.illegal s.pc w) } :=
        congrArg _ (State.raise_of_none (s := s.spend) hf _)
  · exact (step_turn hp hf hc).trans (takeTurn_handler ha)
  · exact (step_turn hp hf hc).trans (takeTurn_entry ha)

end Sys2Proof.Machine
end

section
/-! PROOF. The frames of the commands (40_producer.md, 41_drainer.md): everything that `exec` can answer as a next
state, one relation per group of commands, and what each group leaves unchanged (O52, O53, O54). -/

namespace Sys2Proof.Machine

variable {s t : State} {i : Instr} {b : Byte} {d d' : DrainLabel}

/-! ### The commands of one step -/

/-- What a command of one step can do: raise a fault, or its own update. -/
inductive OneStepUpdate (s : State) : Instr → State → Prop where
  | raised (i : Instr) (hf : s.fault = none) (r : FaultRecord) : OneStepUpdate s i (s.raise r)
  | cfg : OneStepUpdate s .cfg { s with txen := true, ie := true, cfg := true, pc := s.pc + 1 }
  | enqe : OneStepUpdate s .enqe { s with trunc := false, pc := s.pc + 1 }
  | ien (e : Bool) : OneStepUpdate s (.ien e) { s with ie := e, pc := s.pc + 1 }
  | empty : OneStepUpdate s .empty { s with rsp := some (zext16Bool s.isEmpty), pc := s.pc + 1 }
  | occ : OneStepUpdate s .occ { s with rsp := some (zext16 s.occ), pc := s.pc + 1 }
  | clrf : OneStepUpdate s .clrf { s with tc := false, hist := s.hist ++ [.tcClr], hstate := .iret }
  | iret : OneStepUpdate s .iret
      { s with ctx := .mainline, hist := s.hist ++ [.ret], hstate := .drain .s1 }

theorem oneStepUpdate_of_oneStep {body : StepOutcome}
    (hbody : s.fault = none → s.mstate = .idle → body = .next t → OneStepUpdate s i t)
    (h : oneStep i s body = .next t) : OneStepUpdate s i t := by
  obtain ⟨hf, ⟨-, hm, -, h⟩ | ⟨-, -, -, -, rfl⟩ | ⟨-, rfl⟩⟩ := oneStep_next h
  · exact hbody hf hm h
  · exact .raised _ hf _
  · exact .raised _ hf _

/-- A command of one step that always completes. -/
theorem oneStepUpdate_of_complete {u : State} (h : oneStep i s (.next u.complete) = .next t)
    (hm : u.mstate = s.mstate) (hu : OneStepUpdate s i { u with pc := u.pc + 1 }) :
    OneStepUpdate s i t := by
  refine oneStepUpdate_of_oneStep (fun _ hidle h => ?_) h
  cases h
  rwa [State.complete_of_idle (hm.trans hidle)]

theorem oneStepUpdate_of_exec_cfg (h : exec .cfg s = .next t) : OneStepUpdate s .cfg t := by
  refine oneStepUpdate_of_oneStep (fun hf hm h => ?_) h
  split at h
  case isTrue => cases h; exact .raised _ hf _
  case isFalse => cases h; rw [State.complete_of_idle (s := s.configure) hm]; exact .cfg

theorem oneStepUpdate_of_exec_clrf (h : exec .clrf s = .next t) : OneStepUpdate s .clrf t := by
  obtain ⟨hf, ⟨-, h⟩ | ⟨-, rfl⟩⟩ := issue_next h
  · split at h
    case h_1 => cases h; exact .clrf
    case h_2 | h_3 => cases h
  · exact .raised _ hf _

theorem oneStepUpdate_of_exec_iret (h : exec .iret s = .next t) : OneStepUpdate s .iret t := by
  obtain ⟨hf, ⟨-, h⟩ | ⟨-, rfl⟩⟩ := issue_next h
  · split at h
    case h_1 => cases h; exact .iret
    case h_2 | h_3 => cases h
  · exact .raised _ hf _

/-- Everything a command of one step can answer as a next state. -/
theorem oneStepUpdate_of_exec
    (hi : i = .cfg ∨ i = .enqe ∨ (∃ e, i = .ien e) ∨ i = .empty ∨ i = .occ ∨ i = .clrf ∨ i = .iret)
    (h : exec i s = .next t) : OneStepUpdate s i t := by
  rcases hi with rfl | rfl | ⟨e, rfl⟩ | rfl | rfl | rfl | rfl
  · exact oneStepUpdate_of_exec_cfg h
  · exact oneStepUpdate_of_complete h rfl .enqe
  · exact oneStepUpdate_of_complete h rfl (.ien e)
  · exact oneStepUpdate_of_complete h rfl .empty
  · exact oneStepUpdate_of_complete h rfl .occ
  · exact oneStepUpdate_of_exec_clrf h
  · exact oneStepUpdate_of_exec_iret h

/-- Settles O52: each update writes only what its command may. -/
theorem oneStepCommandsFrame : Obligations.OneStepCommandsFrame := by
  unfold Obligations.OneStepCommandsFrame
  intro i s t hi h
  cases oneStepUpdate_of_exec hi h with
  | raised i hf r => simp [State.raise_of_none hf]
  | cfg | enqe | ien | empty | occ | clrf | iret => simp

/-! ### `PRIME` and `DRAIN` -/

/-- What a step of a drain pass writes: `rc` at S4, `txq` and the history at S3 (R101). -/
structure PassWrites (s : State) (d : DrainLabel) (q : List Byte) (es : List Event) (r : Nat) : Prop where
  rc : r = s.rc ∨ r = s.next s.rc ∧ ∃ b, d = .s4 b
  pushes : q = s.txq ∧ es = s.hist ∨
    ∃ b, Memory.read s.storage s.rc = some b ∧ q = s.txq ++ [b] ∧ es = s.hist ++ [.push b]

theorem PassGoes.writes (h : PassGoes s d d' t) :
    ∃ q es r, t = { s with txq := q, hist := es, rc := r } ∧ PassWrites s d q es r := by
  cases h with
  | ready | nonempty => exact ⟨_, _, _, rfl, .inl rfl, .inl ⟨rfl, rfl⟩⟩
  | push b _ hb _ => exact ⟨_, _, _, rfl, .inl rfl, .inr ⟨b, hb, rfl, rfl⟩⟩
  | advance b => exact ⟨_, _, _, rfl, .inr ⟨rfl, b, rfl⟩, .inl ⟨rfl, rfl⟩⟩

/-- `rc` moves only where a pass, of a command or of the handler, stands at its S4 (R101). -/
theorem PassWrites.rc_at {q : List Byte} {es : List Event} {r : Nat} (h : PassWrites s d q es r)
    (hs : ∀ b, d = .s4 b →
      s.mstate = .primeP2 (.s4 b) ∨ s.mstate = .drain (.s4 b) ∨ s.hstate = .drain (.s4 b)) :
    r = s.rc ∨ r = s.next s.rc ∧
      ∃ b, s.mstate = .primeP2 (.s4 b) ∨ s.mstate = .drain (.s4 b) ∨ s.hstate = .drain (.s4 b) :=
  h.rc.imp_right fun ⟨hr, b, hb⟩ => ⟨hr, b, hs b hb⟩

/-- What `PRIME` and `DRAIN` can do: raise a fault, a step of the pass in the mainline or in the handler, or a step
that writes `ie`, `pc` and a micro-state only. -/
inductive DrainUpdate (s : State) : Instr → State → Prop where
  | raised (i : Instr) (hf : s.fault = none) (r : FaultRecord) : DrainUpdate s i (s.raise r)
  | primePass (hc : s.ctx = .mainline) (d d' : DrainLabel) (hd : s.mstate = .primeP2 d)
      (q : List Byte) (es : List Event) (r : Nat) (hw : PassWrites s d q es r) :
      DrainUpdate s .prime { s with txq := q, hist := es, rc := r, mstate := .primeP2 d' }
  | primeOther (hc : s.ctx = .mainline) (ie : Bool) (pc : Nat) (m : MState) :
      DrainUpdate s .prime { s with ie := ie, pc := pc, mstate := m }
  | drainPass (hc : s.ctx = .mainline) (d d' : DrainLabel) (hd : s.DrainAt d)
      (q : List Byte) (es : List Event) (r : Nat) (hw : PassWrites s d q es r) :
      DrainUpdate s .drain { s with txq := q, hist := es, rc := r, mstate := .drain d' }
  | drainExit (hc : s.ctx = .mainline) : DrainUpdate s .drain s.complete
  | handlerPass (hc : s.ctx = .interrupt) (d d' : DrainLabel) (hd : s.hstate = .drain d)
      (q : List Byte) (es : List Event) (r : Nat) (hw : PassWrites s d q es r) :
      DrainUpdate s .drain { s with txq := q, hist := es, rc := r, hstate := .drain d' }
  | handlerExit (hc : s.ctx = .interrupt) : DrainUpdate s .drain { s with hstate := .clrf }

/-- A command that the interrupt context may not issue is issued in the mainline (R148). -/
theorem mainline_of_issuableIn (hi : i.issuableIn s.ctx = true) (hne : i.issuableIn .interrupt = false) :
    s.ctx = .mainline := by
  cases hc : s.ctx with
  | mainline => rfl
  | interrupt => rw [hc, hne] at hi; cases hi

/-- Everything `PRIME` can answer as a next state. -/
theorem drainUpdate_of_exec_prime (h : exec .prime s = .next t) : DrainUpdate s .prime t := by
  obtain ⟨hf, ⟨hi, h⟩ | ⟨-, rfl⟩⟩ := issue_next h
  case inr => exact .raised _ hf _
  have hc : s.ctx = .mainline := mainline_of_issuableIn hi rfl
  cases hm : s.mstate <;> rw [hm] at h <;> simp only [reduceCtorEq] at h
  case idle =>
    obtain ⟨-, h⟩ | ⟨-, -, rfl⟩ := prologue_next h
    · cases h; exact .primeOther hc _ _ _
    · exact .raised _ hf _
  case primeP1 => cases h; exact .primeOther hc _ _ _
  case primeP2 d =>
    obtain ⟨d', s', hp, rfl⟩ | ⟨-, rfl⟩ | ⟨r, -, rfl⟩ := runPass_next h
    · obtain ⟨q, es, r, rfl, hw⟩ := hp.writes
      exact .primePass hc d d' hm q es r hw
    · exact .primeOther hc _ _ _
    · exact .raised _ hf _
  case primeP3 => cases h; exact .primeOther hc _ _ _

theorem drainUpdate_of_drainMainlinePass (hf : s.fault = none) (hc : s.ctx = .mainline)
    (hd : s.DrainAt d) (h : drainMainlinePass d s = .next t) : DrainUpdate s .drain t := by
  obtain ⟨d', s', hp, rfl⟩ | ⟨-, rfl⟩ | ⟨r, -, rfl⟩ := runPass_next h
  · obtain ⟨q, es, r, rfl, hw⟩ := hp.writes
    exact .drainPass hc d d' hd q es r hw
  · exact .drainExit hc
  · exact .raised _ hf _

theorem drainUpdate_of_drainMainline (hf : s.fault = none) (hc : s.ctx = .mainline)
    (h : drainMainline s = .next t) : DrainUpdate s .drain t := by
  unfold drainMainline at h
  cases hm : s.mstate <;> rw [hm] at h <;> simp only [reduceCtorEq] at h
  case idle =>
    obtain ⟨hcfg, h⟩ | ⟨-, -, rfl⟩ := prologue_next h
    · split at h
      case isTrue => cases h; exact .raised _ hf _
      case isFalse hie =>
        exact drainUpdate_of_drainMainlinePass hf hc
          (.inl ⟨⟨hm, by simpa using hcfg⟩, by simpa using hie, rfl⟩) h
    · exact .raised _ hf _
  case drain d => exact drainUpdate_of_drainMainlinePass hf hc (.inr hm) h

theorem drainUpdate_of_drainHandler (hf : s.fault = none) (hc : s.ctx = .interrupt)
    (h : drainHandler s = .next t) : DrainUpdate s .drain t := by
  unfold drainHandler at h
  split at h
  case h_1 d hd =>
    obtain ⟨d', s', hp, rfl⟩ | ⟨-, rfl⟩ | ⟨r, -, rfl⟩ := runPass_next h
    · obtain ⟨q, es, r, rfl, hw⟩ := hp.writes
      exact .handlerPass hc d d' hd q es r hw
    · exact .handlerExit hc
    · exact .raised _ hf _
  case h_2 | h_3 => cases h

/-- Everything `DRAIN` can answer as a next state. -/
theorem drainUpdate_of_exec_drain (h : exec .drain s = .next t) : DrainUpdate s .drain t := by
  obtain ⟨hf, ⟨-, h⟩ | ⟨-, rfl⟩⟩ := issue_next h
  · split at h
    case h_1 hc => exact drainUpdate_of_drainMainline hf hc h
    case h_2 hc => exact drainUpdate_of_drainHandler hf hc h
  · exact .raised _ hf _

/-- A mainline `DRAIN` at the pass's S4 is at that label, not at its start. -/
theorem State.DrainAt.mstate_of_s4 (h : s.DrainAt (.s4 b)) : s.mstate = .drain (.s4 b) :=
  h.resolve_left fun ⟨_, _, hs1⟩ => nomatch hs1

/-- Settles O53: each update writes only what the command may, and a pass step what `PassWrites` says. -/
theorem drainCommandsFrame : Obligations.DrainCommandsFrame := by
  unfold Obligations.DrainCommandsFrame
  intro i s t hi h
  have hu : DrainUpdate s i t := by
    rcases hi with rfl | rfl
    · exact drainUpdate_of_exec_prime h
    · exact drainUpdate_of_exec_drain h
  cases hu with
  | raised i hf r => simp [State.raise_of_none hf]
  | primeOther hc | drainExit hc | handlerExit hc => simp [hc]
  | primePass hc d d' hd q es r hw =>
    have hrc := hw.rc_at fun b hb => Or.inl (hb ▸ hd)
    simpa [hc] using ⟨hrc, hw.pushes⟩
  | drainPass hc d d' hd q es r hw =>
    have hrc := hw.rc_at fun b hb => Or.inr (.inl (hb ▸ hd).mstate_of_s4)
    simpa [hc] using ⟨hrc, hw.pushes⟩
  | handlerPass hc d d' hd q es r hw =>
    have hrc := hw.rc_at fun b hb => Or.inr (.inr (hb ▸ hd))
    simpa [hc] using ⟨hrc, hw.pushes⟩

/-! ### `ENQB` -/

/-- What `ENQB b` can do (R82, R83): raise a fault, hold, or a step at one of its labels. -/
inductive EnqbUpdate (s : State) (b : Byte) : State → Prop where
  | raised (hf : s.fault = none) (r : FaultRecord) : EnqbUpdate s b (s.raise r)
  | goes (m : MState) : EnqbUpdate s b { s with mstate := m }
  | drops : EnqbUpdate s b (dropByte b s)
  | latches (r n : Nat) (hm : s.mstate = .enqbS2 r n) : EnqbUpdate s b (dropByte b (s.setTrunc true))
  | stores (r : Option Nat) (n : Nat) (hm : s.mstate = .enqbS3 r n) :
      EnqbUpdate s b ((memWrite s s.wc b).goto (.enqbS4 r n))
  | publishes (r : Option Nat) (n : Nat) (hm : s.mstate = .enqbS4 r n) :
      EnqbUpdate s b (State.log { s with wc := n } (.enq b)).complete

theorem enqbUpdate_of_enqbS1 (h : enqbS1 b s = .next t) : EnqbUpdate s b t := by
  unfold enqbS1 at h
  split at h
  case h_1 =>
    split at h
    case isTrue => cases h; exact .drops
    case isFalse => cases h; exact .goes _
  case h_2 =>
    split at h
    case isTrue => cases h; exact .goes s.mstate
    case isFalse => cases h; exact .goes _

theorem enqbUpdate_of_enqbS2 {r n : Nat} (hm : s.mstate = .enqbS2 r n) (h : enqbS2 b r n s = .next t) :
    EnqbUpdate s b t := by
  unfold enqbS2 at h
  split at h
  case h_1 =>
    split at h
    case isTrue => cases h; exact .latches r n hm
    case isFalse => cases h; exact .goes _
  case h_2 => cases h

theorem enqbUpdate_of_enqbS3 {r : Option Nat} {n : Nat} (hm : s.mstate = .enqbS3 r n)
    (h : enqbS3 b r n s = .next t) : EnqbUpdate s b t := by
  unfold enqbS3 at h
  split at h
  case isTrue => cases h; exact .stores r n hm
  case isFalse => cases h

/-- Everything `ENQB b` can answer as a next state. -/
theorem enqbUpdate_of_exec (h : exec (.enqb b) s = .next t) : EnqbUpdate s b t := by
  obtain ⟨hf, ⟨-, h⟩ | ⟨-, rfl⟩⟩ := issue_next h
  case inr => exact .raised hf _
  cases hm : s.mstate <;> rw [hm] at h <;> simp only [reduceCtorEq] at h
  case idle =>
    obtain ⟨-, h⟩ | ⟨-, -, rfl⟩ := prologue_next h
    · exact enqbUpdate_of_enqbS1 h
    · exact .raised hf _
  case enqbS1 => exact enqbUpdate_of_enqbS1 h
  case enqbS2 r n => exact enqbUpdate_of_enqbS2 hm h
  case enqbS3 r n => exact enqbUpdate_of_enqbS3 hm h
  case enqbS4 r n => cases h; exact .publishes r n hm

/-- Settles O54: only S3's update writes a slot, and it is slot `wc`. -/
theorem enqbFrame : Obligations.EnqbFrame := by
  unfold Obligations.EnqbFrame
  intro b s t h
  cases enqbUpdate_of_exec h with
  | raised hf r => simp [State.raise_of_none hf]
  | goes m | drops => simp
  | latches r n hm => simp [hm]
  | publishes r n hm => simp [hm]
  | stores r n hm =>
    have other (j : Nat) (hj : j ≠ s.wc) :
        Memory.read (Memory.write s.storage s.wc b) j = Memory.read s.storage j :=
      Memory.read_write_other _ hj.symm b
    simpa [hm] using other

end Sys2Proof.Machine
end

section
/-! PROOF. Mainline commands that run with no other agent stepping: one `ENQB` (O38), a whole enqueue call by
induction on its bytes (O39), and the greedy drain pass by induction on the occupancy, in `PRIME` (O46) and in a mainline
`DRAIN` (O47). -/

namespace Sys2Proof.Machine

variable {s t u : State} {i : Instr} {is : List Instr} {b : Byte} {bs : List Byte} {k n : Nat}
  {d d' e : DrainLabel}

/-! ### Running a command -/

/-- A step that does not complete the command uses up one of the steps allowed. -/
theorem runCommand_goes (h : exec i s = .next t) (ht : t.mstate ≠ .idle) :
    runCommand i (k + 1) s = runCommand i k t := by
  simp [runCommand, h, ht]

/-- A step that completes the command ends its run. -/
theorem runCommand_ends (h : exec i s = .next t) (ht : t.mstate = .idle) :
    runCommand i (k + 1) s = .next t := by
  simp [runCommand, h, ht]

theorem runCommands_cons (h : runCommand i 4 s = .next t) :
    runCommands (i :: is) s = runCommands is t := by
  simp [runCommands, h]

/-- Wherever a command goes next, the mainline stands there. -/
theorem State.inMainline_goto (hf : s.fault = none) (hc : s.ctx = .mainline) (m : MState) :
    (s.goto m).InMainline m :=
  ⟨hf, hc, rfl⟩

theorem State.AtCommand.goto (h : s.AtCommand) (m : MState) : (s.goto m).InMainline m :=
  State.inMainline_goto h.1.fault h.1.ctx m

/-! ### One `ENQB` (R82) -/

/-- The byte is stored in slot `wc` and published, and the command completes (R82 S3, S4). -/
def storeByte (b : Byte) (s : State) : State :=
  ({ memWrite s s.wc b with wc := s.next s.wc }.log (.enq b)).complete

theorem enqb_alone_drops (h : s.AtCommand) (hp : s.params.enqPolicy = .nonblocking)
    (hd : s.trunc = true ∨ s.next s.wc = s.rc) :
    runCommand (.enqb b) 4 s = .next (dropByte b (s.setTrunc true)) := by
  cases ht : s.trunc with
  | true =>
    have hs : s.setTrunc true = s := by rw [← ht]; rfl
    rw [hs]
    exact runCommand_ends ((exec_enqb_at_s1 (.inl h)).trans (enqbS1_truncated hp ht)) rfl
  | false =>
    have hfull : s.next s.wc = s.rc := hd.resolve_left (by simp [ht])
    calc runCommand (.enqb b) 4 s
      _ = runCommand (.enqb b) 3 (s.goto (.enqbS2 s.rc (s.next s.wc))) :=
        runCommand_goes ((exec_enqb_at_s1 (.inl h)).trans (enqbS1_snapshot hp ht)) nofun
      _ = .next (dropByte b (s.setTrunc true)) :=
        runCommand_ends ((exec_enqb_of_s2 (h.goto _)).trans (enqbS2_full (s := s.goto _) hp hfull)) rfl

theorem enqb_alone_stores (h : s.AtCommand) (hp : s.params.enqPolicy = .nonblocking)
    (hw : s.wc < s.params.capacity) (ht : s.trunc = false) (hne : s.next s.wc ≠ s.rc) :
    runCommand (.enqb b) 4 s = .next (storeByte b s) := by
  calc runCommand (.enqb b) 4 s
    _ = runCommand (.enqb b) 3 (s.goto (.enqbS2 s.rc (s.next s.wc))) :=
      runCommand_goes ((exec_enqb_at_s1 (.inl h)).trans (enqbS1_snapshot hp ht)) nofun
    _ = runCommand (.enqb b) 2 (s.goto (.enqbS3 (some s.rc) (s.next s.wc))) :=
      runCommand_goes ((exec_enqb_of_s2 (h.goto _)).trans (enqbS2_fits hp hne)) nofun
    _ = runCommand (.enqb b) 1 ((memWrite s s.wc b).goto (.enqbS4 (some s.rc) (s.next s.wc))) :=
      runCommand_goes ((exec_enqb_of_s3 (h.goto _)).trans (enqbS3_store hw)) nofun
    _ = .next (storeByte b s) := runCommand_ends (exec_enqb_of_s4 ⟨h.1.fault, h.1.ctx, rfl⟩) rfl

theorem dropByte_of_idle (h : s.mstate = .idle) :
    dropByte b s = { s with hist := s.hist ++ [.drop b], pc := s.pc + 1 } :=
  State.complete_of_idle (s := s.log (.drop b)) h

theorem storeByte_of_idle (h : s.mstate = .idle) :
    storeByte b s = { s with storage := Memory.write s.storage s.wc b, wc := s.next s.wc,
                             hist := s.hist ++ [.enq b], pc := s.pc + 1 } :=
  State.complete_of_idle (s := State.log { memWrite s s.wc b with wc := s.next s.wc } (.enq b)) h

/-- Settles O38. -/
theorem enqbAloneStoresOrDrops : Obligations.EnqbAloneStoresOrDrops := by
  unfold Obligations.EnqbAloneStoresOrDrops
  refine fun s b h hp hw => ⟨fun hd => ?_, fun ht hne => ?_⟩
  · rw [enqb_alone_drops h hp hd, dropByte_of_idle (s := s.setTrunc true) h.mstate]
    rfl
  · rw [enqb_alone_stores h hp hw ht hne, storeByte_of_idle h.mstate]
    rfl

/-! ### An enqueue call (R85) -/

/-- From a byte that does not fit on, all bytes of the call are dropped (R82, R85). -/
theorem runCommands_drops (h : s.AtCommand) (hp : s.params.enqPolicy = .nonblocking)
    (hd : s.trunc = true ∨ s.next s.wc = s.rc) :
    runCommands ((b :: bs).map .enqb ++ is) s =
      runCommands is { s with trunc := true, hist := s.hist ++ (b :: bs).map .drop,
                              pc := s.pc + (bs.length + 1) } := by
  induction bs generalizing s b with
  | nil =>
    refine (runCommands_cons (enqb_alone_drops h hp hd)).trans (congrArg _ ?_)
    exact dropByte_of_idle (s := s.setTrunc true) h.mstate
  | cons c cs ih =>
    have h' : (dropByte b (s.setTrunc true)).AtCommand := ⟨⟨h.1.fault, h.1.ctx, rfl⟩, h.2⟩
    refine (runCommands_cons (enqb_alone_drops h hp hd)).trans ?_
    refine (ih h' hp (.inl rfl)).trans (congrArg _ ?_)
    rw [dropByte_of_idle (s := s.setTrunc true) h.mstate]
    simp [State.setTrunc, Nat.add_assoc, Nat.add_comm 1]

/-- How many bytes the buffer still takes (R52). -/
def State.room (s : State) : Nat := s.params.capacity - 1 - s.occ

/-- What an enqueue call leaves (R85): the bytes that fit are queued in order, the rest dropped, the latch clear. -/
structure CallStores (s : State) (bytes : List Byte) (t : State) : Prop where
  atCommand : t.AtCommand
  trunc : t.trunc = false
  rc : t.rc = s.rc
  pc : t.pc = s.pc + bytes.length + 1
  occ : t.occ = s.occ + min bytes.length s.room
  queued : t.queued = s.queued ++ bytes.take s.room
  hist : t.hist = s.hist ++ (bytes.take s.room).map Event.enq ++ (bytes.drop s.room).map Event.drop

/-- `ENQE` ends the call (R84). -/
theorem runCommands_enqe (h : s.AtCommand) :
    runCommands [.enqe] s = .next { s with trunc := false, pc := s.pc + 1 } :=
  runCommands_cons (runCommand_ends (exec_enqe_atCommand h) h.mstate)

/-- A full buffer has no room. -/
theorem State.room_of_full (hw : s.wc < s.params.capacity) (hr : s.rc < s.params.capacity)
    (h : s.next s.wc = s.rc) : s.room = 0 := by
  have ho : s.occ = s.params.capacity - 1 := (nextCursor_eq_iff_occupancy hw hr).mp h
  simp [State.room, ho]

/-- A byte stored in slot `wc` of a buffer that is not full takes one place of its room. -/
theorem occ_storeByte (hw : s.wc < s.params.capacity) (hr : s.rc < s.params.capacity)
    (hne : s.next s.wc ≠ s.rc) : (storeByte b s).occ = s.occ + 1 :=
  occupancy_next_left hw hr hne

theorem room_storeByte (hw : s.wc < s.params.capacity) (hr : s.rc < s.params.capacity)
    (hne : s.next s.wc ≠ s.rc) : s.room = (storeByte b s).room + 1 := by
  have ho := occ_storeByte (b := b) hw hr hne
  have hlt : (storeByte b s).occ < s.params.capacity := occupancy_lt (nextCursor_lt hw) hr
  show s.params.capacity - 1 - s.occ = s.params.capacity - 1 - (storeByte b s).occ + 1
  omega

/-- The stored byte stands at the queue's end: slot `wc` was not queued. -/
theorem queued_storeByte (hw : s.wc < s.params.capacity) (hr : s.rc < s.params.capacity)
    (hne : s.next s.wc ≠ s.rc) : (storeByte b s).queued = s.queued ++ [b] := by
  have hstore : (memWrite s s.wc b).queued = s.queued :=
    List.filterMap_congr fun _ hk =>
      Memory.read_write_other _ (slot_ne_write hw hr (List.mem_range.mp hk)).symm b
  rw [← hstore]
  exact queued_publish (s := memWrite s s.wc b) hw hr hne (Memory.read_write_self _ _ _)

/-- A call whose first byte does not fit stores nothing. -/
theorem CallStores.of_full (h : s.AtCommand) (hroom : s.room = 0) (bytes : List Byte) :
    CallStores s bytes { s with trunc := false, hist := s.hist ++ bytes.map .drop,
                                pc := s.pc + bytes.length + 1 } where
  atCommand := h
  trunc := rfl
  rc := rfl
  pc := rfl
  occ := by rw [hroom, Nat.min_zero]; rfl
  queued := by rw [hroom, List.take_zero, List.append_nil]; rfl
  hist := by simp [hroom]

/-- A call whose first byte is stored does with the rest what the call of the rest does. -/
theorem CallStores.cons (hw : s.wc < s.params.capacity) (hr : s.rc < s.params.capacity)
    (hne : s.next s.wc ≠ s.rc) (h : CallStores (storeByte b s) bs t) : CallStores s (b :: bs) t := by
  have hroom := room_storeByte (b := b) hw hr hne
  have hocc := occ_storeByte (b := b) hw hr hne
  refine ⟨h.atCommand, h.trunc, h.rc, ?_, ?_, ?_, ?_⟩
  · rw [h.pc, List.length_cons]
    show s.pc + 1 + bs.length + 1 = s.pc + (bs.length + 1) + 1
    omega
  · rw [h.occ, hocc, hroom, List.length_cons]
    omega
  · rw [h.queued, queued_storeByte hw hr hne, hroom]
    simp
  · rw [h.hist, hroom]
    simp [storeByte]

/-- An enqueue call that runs alone: each byte is stored until one does not fit, which latches `trunc`. -/
theorem enqueueCall_alone (bytes : List Byte) (h : s.AtCommand)
    (hp : s.params.enqPolicy = .nonblocking) (ht : s.trunc = false) (hw : s.wc < s.params.capacity)
    (hr : s.rc < s.params.capacity) :
    ∃ t, runCommands (enqueueCall bytes) s = .next t ∧ CallStores s bytes t := by
  induction bytes generalizing s with
  | nil =>
    refine ⟨_, runCommands_enqe h, h, rfl, rfl, rfl, ?_, ?_, ?_⟩
    · simp [State.occ]
    · rw [List.take_nil, List.append_nil]; rfl
    · simp
  | cons b bs ih =>
    by_cases hne : s.next s.wc = s.rc
    case pos =>
      have hend := runCommands_enqe (s := { s with trunc := true, hist := s.hist ++ (b :: bs).map .drop,
                                                   pc := s.pc + (bs.length + 1) }) h
      exact ⟨_, (runCommands_drops h hp (.inr hne)).trans hend,
        .of_full h (State.room_of_full hw hr hne) (b :: bs)⟩
    case neg =>
      have h' : (storeByte b s).AtCommand := ⟨⟨h.1.fault, h.1.ctx, rfl⟩, h.2⟩
      obtain ⟨t, hrun, hst⟩ := ih (s := storeByte b s) h' hp ht (nextCursor_lt hw) hr
      exact ⟨t, (runCommands_cons (enqb_alone_stores h hp hw ht hne)).trans hrun, hst.cons hw hr hne⟩

/-- Settles O39, by induction on the bytes of the call. -/
theorem enqueueCallStoresThePrefixThatFits : Obligations.EnqueueCallStoresThePrefixThatFits := by
  unfold Obligations.EnqueueCallStoresThePrefixThatFits
  intro s bytes h hp ht hw hr _
  obtain ⟨t, hrun, c⟩ := enqueueCall_alone bytes h hp ht hw hr
  exact ⟨t, hrun, c.atCommand, c.trunc, c.rc, c.pc, c.occ, c.queued, c.hist⟩

/-! ### A drain pass on its own (R101, R102) -/

/-- So many moves of a drain pass, one after the other. -/
inductive PassSteps : Nat → State → DrainLabel → State → DrainLabel → Prop where
  | refl (s : State) (d : DrainLabel) : PassSteps 0 s d s d
  | head {n : Nat} {s u t : State} {d d' e : DrainLabel} (h : PassGoes s d d' u)
      (hs : PassSteps n u d' t e) : PassSteps (n + 1) s d t e

/-- How many bytes the peripheral still takes (R116). -/
def State.txRoom (s : State) : Nat := s.params.dTx - s.txq.length

/-- What a greedy drain pass leaves (R102): the oldest queued bytes moved to `txq` as far as there was room, in
order, and all but `txq`, the history and `rc` as it was. -/
structure Drained (s t : State) : Prop where
  frame : { t with txq := s.txq, hist := s.hist, rc := s.rc } = s
  txq : t.txq = s.txq ++ s.queued.take s.txRoom
  occ : t.occ = s.occ - s.txRoom
  queued : t.queued = s.queued.drop s.txRoom

theorem Drained.pc (h : Drained s t) : t.pc = s.pc := (congrArg State.pc h.frame :)

theorem Drained.ie (h : Drained s t) : t.ie = s.ie := (congrArg State.ie h.frame :)

theorem Drained.ctx (h : Drained s t) : t.ctx = s.ctx := (congrArg State.ctx h.frame :)

theorem Drained.fault (h : Drained s t) : t.fault = s.fault := (congrArg State.fault h.frame :)

/-- What a drain pass needs in order to raise no fault and to end: transmission enabled, both cursors in range and
every queued slot written. -/
structure Drainable (s : State) : Prop where
  txen : s.txen = true
  wc_lt : s.wc < s.params.capacity
  rc_lt : s.rc < s.params.capacity
  written : ∀ k, k < s.occ → (Memory.read s.storage ((s.rc + k) % s.params.capacity)).isSome = true

theorem Inv.drainable (I : Inv s) (h : s.cfg = true) : Drainable s :=
  ⟨I.txen_cfg.trans h, I.wc_lt, I.rc_lt, I.written⟩

/-- One round of the pass, S1 to S4 (R101): the byte of slot `rc` is in `txq` and off the queue. -/
def moveByte (b : Byte) (s : State) : State :=
  { s with txq := s.txq ++ [b], hist := s.hist ++ [.push b], rc := s.next s.rc }

theorem Drainable.occ_moveByte (D : Drainable s) (hne : s.rc ≠ s.wc) : (moveByte b s).occ + 1 = s.occ :=
  occupancy_next_right D.wc_lt D.rc_lt hne

theorem Drainable.keeps_moveByte (D : Drainable s) (hne : s.rc ≠ s.wc) : Drainable (moveByte b s) where
  txen := D.txen
  wc_lt := D.wc_lt
  rc_lt := nextCursor_lt D.rc_lt
  written k hk := by
    have ho := D.occ_moveByte (b := b) hne
    show (Memory.read s.storage ((nextCursor s.params.capacity s.rc + k) % s.params.capacity)).isSome = true
    rw [slot_succ]
    exact D.written (k + 1) (by omega)

/-- Where the buffer is not empty, its oldest byte can be read. -/
theorem Drainable.oldest (D : Drainable s) (hne : s.rc ≠ s.wc) :
    ∃ b, Memory.read s.storage s.rc = some b := by
  have ho := D.occ_moveByte (b := 0) hne
  have := D.written 0 (by omega)
  rw [Nat.add_zero, Nat.mod_eq_of_lt D.rc_lt] at this
  exact Option.isSome_iff_exists.mp this

/-- A pass that finds no room or nothing queued leaves everything as it is. -/
theorem Drained.refl (h : s.txRoom = 0 ∨ s.occ = 0) : Drained s s := by
  have hq : s.occ = 0 → s.queued = [] := fun ho => by simp [State.queued, ho]
  refine ⟨rfl, ?_, ?_, ?_⟩ <;> rcases h with h | h <;> simp [h, hq]

/-- A pass that moves the oldest byte and then drains what is left has drained greedily. -/
theorem Drained.of_moveByte (D : Drainable s) (hr : s.ready = true) (hne : s.rc ≠ s.wc)
    (hb : Memory.read s.storage s.rc = some b) (h : Drained (moveByte b s) t) : Drained s t := by
  have hq : s.queued = b :: (moveByte b s).queued := queued_pop D.wc_lt D.rc_lt hne hb
  have ho := D.occ_moveByte (b := b) hne
  have hroom : s.txRoom = (moveByte b s).txRoom + 1 := by
    have hlt := (ready_iff.mp hr).2
    have hlen : (moveByte b s).txq.length = s.txq.length + 1 := by simp [moveByte]
    show s.params.dTx - s.txq.length = s.params.dTx - (moveByte b s).txq.length + 1
    omega
  refine ⟨?_, ?_, ?_, ?_⟩
  · exact congrArg (fun v : State => { v with txq := s.txq, hist := s.hist, rc := s.rc }) h.frame
  · rw [h.txq, hq, hroom]
    simp [moveByte]
  · rw [h.occ, hroom]
    omega
  · rw [h.queued, hq, hroom]
    rfl

/-- A drain pass alone reaches an exit within `4 occ + 1` moves and has drained greedily (R102). -/
theorem Drainable.pass_drains (D : Drainable s) :
    ∃ n t e, n ≤ 4 * s.occ + 1 ∧ PassSteps n s .s1 t e ∧ PassExits t e ∧ Drained s t := by
  induction ho : s.occ using Nat.strong_induction_on generalizing s with
  | _ k ih =>
    cases hr : s.ready with
    | false =>
      have hfull : ¬ s.txq.length < s.params.dTx := fun h => by simp [ready_iff.mpr ⟨D.txen, h⟩] at hr
      exact ⟨0, s, .s1, by omega, .refl s _, .notReady hr, .refl (.inl (Nat.sub_eq_zero_of_le (by omega)))⟩
    | true =>
      by_cases hne : s.rc = s.wc
      case pos =>
        have hzero : s.occ = 0 := (occupancy_eq_zero_iff D.wc_lt D.rc_lt).mpr hne.symm
        exact ⟨1, s, .s2, by omega, .head (.ready hr) (.refl s _), .empty hne, .refl (.inr hzero)⟩
      case neg =>
        obtain ⟨b, hb⟩ := D.oldest hne
        have hmove := D.occ_moveByte (b := b) hne
        obtain ⟨n, t, e, hn, hsteps, hexit, hd⟩ := ih _ (by omega) (D.keeps_moveByte (b := b) hne) rfl
        exact ⟨n + 4, t, e, by omega,
          .head (.ready hr) (.head (.nonempty hne) (.head (.push b D.rc_lt hb hr) (.head (.advance b) hsteps))),
          hexit, hd.of_moveByte D hr hne hb⟩

/-! ### A drain command that runs alone -/

/-- A drain pass does not read the mainline's micro-state. -/
theorem PassGoes.goto (h : PassGoes s d d' t) (m : MState) : PassGoes (s.goto m) d d' (t.goto m) := by
  cases h with
  | ready h => exact .ready h
  | nonempty h => exact .nonempty h
  | push b hr hb h => exact .push b hr hb h
  | advance b => exact .advance b

theorem PassExits.goto (h : PassExits s d) (m : MState) : PassExits (s.goto m) d := by
  cases h with
  | notReady h => exact .notReady h
  | empty h => exact .empty h

/-- A command whose labels `label` are those of its drain pass runs through the moves of the pass. -/
theorem runCommand_passSteps {label : DrainLabel → MState} (hl : ∀ d, label d ≠ .idle)
    (hgo : ∀ {s t d d'}, s.InMainline (label d) → PassGoes s d d' t → exec i s = .next (t.goto (label d')))
    (h : PassSteps n s d t e) (hf : s.fault = none) (hc : s.ctx = .mainline) :
    runCommand i (k + n) (s.goto (label d)) = runCommand i k (t.goto (label e)) := by
  induction h with
  | refl => rfl
  | head h _ ih =>
    have hf' := (congrArg State.fault h.frame).trans hf
    have hstep := hgo (State.inMainline_goto hf hc _) (h.goto _)
    exact (runCommand_goes hstep (hl _)).trans (ih hf' (h.ctx.trans hc))

/-- The run of a `PRIME`, from the pass's result (R86). -/
theorem runCommand_prime (h : s.AtCommand) (hs : PassSteps n (s.setEnable false) .s1 t e)
    (hexit : PassExits t e) (hd : Drained (s.setEnable false) t) :
    runCommand .prime (k + 3 + n) s = .next (t.setEnable true).complete := by
  have hf : t.fault = none := hd.fault.trans h.1.fault
  have hc : t.ctx = .mainline := hd.ctx.trans h.1.ctx
  calc runCommand .prime (k + 3 + n) s
    _ = runCommand .prime (k + 2 + n + 1) s := by rw [show k + 3 + n = k + 2 + n + 1 by omega]
    _ = runCommand .prime (k + 2 + n) ((s.setEnable false).goto (.primeP2 .s1)) :=
      runCommand_goes (exec_prime_at_p1 (.inl h)) nofun
    _ = runCommand .prime (k + 2) (t.goto (.primeP2 e)) :=
      runCommand_passSteps nofun exec_prime_goes hs h.1.fault h.1.ctx
    _ = runCommand .prime (k + 1) (t.goto .primeP3) :=
      runCommand_goes (exec_prime_exits (State.inMainline_goto hf hc _) (hexit.goto _)) nofun
    _ = .next (t.setEnable true).complete := runCommand_ends (exec_prime_of_p3 ⟨hf, hc, rfl⟩) rfl

/-- A mainline `DRAIN` begins as at the label of its pass's S1 (R87). -/
theorem exec_drain_at_begin (h : s.AtCommand) (hie : s.ie = false) :
    exec .drain s = exec .drain (s.goto (.drain .s1)) := by
  have hd : s.DrainAt .s1 := .inl ⟨⟨h.mstate, h.2⟩, hie, rfl⟩
  have hlabel := h.goto (.drain .s1)
  cases hr : s.ready with
  | true =>
    rw [exec_drain_goes h.1 hd (.ready hr), exec_drain_goes hlabel (.inr rfl) (.ready hr)]
    rfl
  | false =>
    rw [exec_drain_exits h.1 hd (.notReady hr), exec_drain_exits hlabel (.inr rfl) (.notReady hr)]
    rfl

/-- The run of a mainline `DRAIN`, from the pass's result (R87). -/
theorem runCommand_drain (h : s.AtCommand) (hie : s.ie = false) (hs : PassSteps n s .s1 t e)
    (hexit : PassExits t e) (hd : Drained s t) :
    runCommand .drain (k + 1 + n) s = .next t.complete := by
  have hf : t.fault = none := hd.fault.trans h.1.fault
  have hc : t.ctx = .mainline := hd.ctx.trans h.1.ctx
  have hgo {s t : State} {d d' : DrainLabel} (h : s.InMainline (.drain d)) (hp : PassGoes s d d' t) :
      exec .drain s = .next (t.goto (.drain d')) := exec_drain_goes h (.inr h.mstate) hp
  calc runCommand .drain (k + 1 + n) s
    _ = runCommand .drain (k + 1 + n) (s.goto (.drain .s1)) := by
      rw [show k + 1 + n = k + n + 1 by omega]
      unfold runCommand
      rw [exec_drain_at_begin h hie]
    _ = runCommand .drain (k + 1) (t.goto (.drain e)) :=
      runCommand_passSteps nofun hgo hs h.1.fault h.1.ctx
    _ = .next t.complete :=
      runCommand_ends (exec_drain_exits (State.inMainline_goto hf hc _) (.inr rfl) (hexit.goto _)) rfl

/-- Settles O46: `PRIME` takes three steps beside those of its pass. -/
theorem primeAloneDrainsGreedily : Obligations.PrimeAloneDrainsGreedily := by
  unfold Obligations.PrimeAloneDrainsGreedily
  intro s I h _
  have D := I.drainable h.2
  have D : Drainable (s.setEnable false) := ⟨D.txen, D.wc_lt, D.rc_lt, D.written⟩
  obtain ⟨n, t, e, hn, hs, hexit, hd⟩ := D.pass_drains
  obtain ⟨k, hk⟩ : ∃ k, 4 * s.occ + 1 = k + n := ⟨_, (Nat.sub_add_cancel hn).symm⟩
  have hrun := runCommand_prime (k := k) h hs hexit hd
  rw [show k + 3 + n = 4 * s.occ + 4 by omega] at hrun
  exact ⟨_, hrun, rfl, congrArg (· + 1) hd.pc, rfl, hd.txq, hd.occ, hd.queued,
    hd.fault.trans h.1.fault⟩

/-- Settles O47: a `DRAIN` takes one step beside those of its pass. -/
theorem drainAloneDrainsGreedily : Obligations.DrainAloneDrainsGreedily := by
  unfold Obligations.DrainAloneDrainsGreedily
  intro s I h _ hie
  obtain ⟨n, t, e, hn, hs, hexit, hd⟩ := (I.drainable h.2).pass_drains
  obtain ⟨k, hk⟩ : ∃ k, 4 * s.occ + 3 = k + n := ⟨_, (Nat.sub_add_cancel (by omega)).symm⟩
  have hrun := runCommand_drain (k := k) h hie hs hexit hd
  rw [show k + 1 + n = 4 * s.occ + 4 by omega] at hrun
  exact ⟨_, hrun, rfl, congrArg (· + 1) hd.pc, hd.ie.trans hie, hd.txq, hd.occ,
    hd.queued, hd.fault.trans h.1.fault⟩

end Sys2Proof.Machine
end

section
/-! PROOF. The handler (41_drainer.md): every step of its `DRAIN` (O44), `CLRF` and `IRET` (O45), and its whole run from
entry to `IRET` with no other agent stepping (O48), which with `ISR_ATOMIC_WRT_LINE` is one step (O49). -/

namespace Sys2Proof.Machine

variable {s t : State} {i : Instr} {body : StepOutcome} {x : HState} {d d' e : DrainLabel} {k n : Nat}

/-! ### The handler's commands at each position -/

theorem State.InHandler.fault (h : s.InHandler x) : s.fault = none := h.1

theorem State.InHandler.ctx (h : s.InHandler x) : s.ctx = .interrupt := h.2.1

theorem State.InHandler.hstate (h : s.InHandler x) : s.hstate = x := h.2.2

theorem State.InHandler.hand (h : s.InHandler x) : s.Hand := ⟨h.fault, h.ctx⟩

/-- A command of the handler program is issued without a fault in the interrupt context (R148). -/
theorem State.InHandler.issue_eq (h : s.InHandler x) (hi : i.issuableIn .interrupt = true) :
    issue i s body = body :=
  issue_ok h.fault (by rwa [h.ctx])

/-- The handler at a position of its program (R36): what `goto` is to the mainline. -/
def State.handlerAt (s : State) (x : HState) : State := { s with hstate := x }

/-- Wherever the handler goes next, it stands there. -/
theorem State.inHandler_handlerAt (hf : s.fault = none) (hc : s.ctx = .interrupt) (x : HState) :
    (s.handlerAt x).InHandler x :=
  ⟨hf, hc, rfl⟩

/-- The handler's `DRAIN` makes a step of its pass (R101). -/
theorem exec_drain_of_hand (h : s.InHandler (.drain d)) :
    exec .drain s = runPass d s (fun d' s' => s'.handlerAt (.drain d')) (·.handlerAt .clrf) := by
  have hissue : exec .drain s = drainHandler s := by
    refine (h.issue_eq rfl).trans ?_
    rw [h.ctx]
  rw [hissue]
  unfold drainHandler
  rw [h.hstate]
  rfl

theorem exec_drain_hand_goes (h : s.InHandler (.drain d)) (hp : PassGoes s d d' t) :
    exec .drain s = .next (t.handlerAt (.drain d')) :=
  (exec_drain_of_hand h).trans (runPass_goes hp)

theorem exec_drain_hand_exits (h : s.InHandler (.drain d)) (hp : PassExits s d) :
    exec .drain s = .next (s.handlerAt .clrf) :=
  (exec_drain_of_hand h).trans (runPass_exits hp)

theorem exec_clrf_of_hand (h : s.InHandler .clrf) :
    exec .clrf s = .next (s.clearFlag.handlerAt .iret) := by
  refine (h.issue_eq rfl).trans ?_
  rw [h.hstate]
  rfl

theorem exec_iret_of_hand (h : s.InHandler .iret) : exec .iret s = .next s.returnFromInterrupt := by
  refine (h.issue_eq rfl).trans ?_
  rw [h.hstate]

/-- Settles O44: each clause is one move or one exit of the pass. -/
theorem handlerDrainSteps : Obligations.HandlerDrainSteps := by
  unfold Obligations.HandlerDrainSteps
  exact fun s =>
    ⟨fun h hr => exec_drain_hand_goes h (.ready hr),
     fun h hr => exec_drain_hand_exits h (.notReady hr),
     fun h he => exec_drain_hand_exits h (.empty he),
     fun h hne => exec_drain_hand_goes h (.nonempty hne),
     fun b h hrc hb hr => exec_drain_hand_goes h (.push b hrc hb hr),
     fun b h => exec_drain_hand_goes h (.advance b)⟩

/-- Back in the mainline context, entry waits for nothing but the request (R140, R144). -/
theorem State.returnFromInterrupt_enabled_entry (hf : s.fault = none) :
    s.returnFromInterrupt.enabled .entry = s.irq :=
  Bool.eq_iff_iff.mpr (enabled_entry.trans (and_iff_right ⟨hf, rfl⟩))

/-- Settles O45. -/
theorem clrfClearsAndIretReturns : Obligations.ClrfClearsAndIretReturns := by
  unfold Obligations.ClrfClearsAndIretReturns
  exact fun s => ⟨exec_clrf_of_hand, fun h =>
    ⟨_, exec_iret_of_hand h, rfl, State.returnFromInterrupt_enabled_entry h.fault⟩⟩

/-! ### Running the handler -/

/-- A step of the handler uses up one of the steps allowed. -/
theorem runHandler_goes (h : s.InHandler x) (hs : exec x.command s = .next t) :
    runHandler (k + 1) s = runHandler k t := by
  have hstep : handlerStep s = .next t := by rw [handlerStep, h.hstate, hs]
  simp [runHandler, enabled_handler.mpr h.hand, hstep]

/-- With the core handed back the run is over, however many steps are left. -/
theorem runHandler_of_mainline (hc : s.ctx = .mainline) : runHandler k s = .next s := by
  cases k with
  | zero => rfl
  | succ k => simp [runHandler, State.enabled, hc]

/-- A drain pass does not read the handler's position. -/
theorem PassGoes.handlerAt (h : PassGoes s d d' t) (x : HState) :
    PassGoes (s.handlerAt x) d d' (t.handlerAt x) := by
  cases h with
  | ready h => exact .ready h
  | nonempty h => exact .nonempty h
  | push b hr hb h => exact .push b hr hb h
  | advance b => exact .advance b

theorem PassExits.handlerAt (h : PassExits s d) (x : HState) : PassExits (s.handlerAt x) d := by
  cases h with
  | notReady h => exact .notReady h
  | empty h => exact .empty h

/-- The handler runs through the moves of its pass. -/
theorem runHandler_passSteps (h : PassSteps n s d t e) (hf : s.fault = none) (hc : s.ctx = .interrupt) :
    runHandler (k + n) (s.handlerAt (.drain d)) = runHandler k (t.handlerAt (.drain e)) := by
  induction h with
  | refl => rfl
  | head h _ ih =>
    have hf' := (congrArg State.fault h.frame).trans hf
    have hat := State.inHandler_handlerAt hf hc
    have hstep := exec_drain_hand_goes (hat _) (h.handlerAt _)
    exact (runHandler_goes (hat (.drain _)) hstep).trans (ih hf' (h.ctx.trans hc))

/-- The run of the handler, from its pass's result: the exit, `CLRF` and `IRET` follow (R100). -/
theorem runHandler_returns (h : s.InHandler (.drain .s1)) (hs : PassSteps n s .s1 t e)
    (hexit : PassExits t e) (hd : Drained s t) :
    runHandler (k + 3 + n) s = .next t.clearFlag.returnFromInterrupt := by
  have hf : t.fault = none := hd.fault.trans h.fault
  have hc : t.ctx = .interrupt := hd.ctx.trans h.ctx
  have hat := State.inHandler_handlerAt hf hc
  have hstart : s.handlerAt (.drain .s1) = s := by rw [← h.hstate]; rfl
  calc runHandler (k + 3 + n) s
    _ = runHandler (k + 3 + n) (s.handlerAt (.drain .s1)) := by rw [hstart]
    _ = runHandler (k + 3) (t.handlerAt (.drain e)) := runHandler_passSteps hs h.fault h.ctx
    _ = runHandler (k + 2) (t.handlerAt .clrf) :=
      runHandler_goes (hat _) (exec_drain_hand_exits (hat _) (hexit.handlerAt _))
    _ = runHandler (k + 1) (t.clearFlag.handlerAt .iret) :=
      runHandler_goes ⟨hf, hc, rfl⟩ (exec_clrf_of_hand ⟨hf, hc, rfl⟩)
    _ = runHandler k t.clearFlag.returnFromInterrupt :=
      runHandler_goes ⟨hf, hc, rfl⟩ (exec_iret_of_hand ⟨hf, hc, rfl⟩)
    _ = .next t.clearFlag.returnFromInterrupt := runHandler_of_mainline rfl

/-! ### How many moves a pass makes -/

/-- A move lowers the label's rank by one, except the push, which raises it by the three other moves of a round. -/
theorem PassGoes.rank (h : PassGoes s d d' t) :
    4 * s.txq.length + d'.rank + 1 = 4 * t.txq.length + d.rank := by
  cases h with
  | push => simp only [DrainLabel.rank, List.length_append, List.length_singleton]; omega
  | ready | nonempty | advance => rfl

/-- The moves of a pass are counted by the bytes it has pushed. -/
theorem PassSteps.count (h : PassSteps n s d t e) :
    n + 4 * s.txq.length + e.rank = 4 * t.txq.length + d.rank := by
  induction h with
  | refl => omega
  | head h _ ih => have := h.rank; omega

/-- A pass that starts at S1 and has drained greedily has made four moves a byte that the peripheral took, and at
most one more. -/
theorem Drained.count_le (h : Drained s t) (hs : PassSteps n s .s1 t e) (hexit : PassExits t e) :
    n ≤ 4 * s.txRoom + 1 := by
  have hcount := hs.count
  have hlen : t.txq.length ≤ s.txq.length + s.txRoom := by
    rw [h.txq, List.length_append]
    exact Nat.add_le_add_left (List.length_take_le _ _) _
  cases hexit with
  | notReady | empty => simp only [DrainLabel.rank] at hcount; omega

/-! ### The handler alone (R102, R105, R108) -/

theorem Drained.mstate (h : Drained s t) : t.mstate = s.mstate := (congrArg State.mstate h.frame :)

/-- The handler alone, from its start: it drains greedily and returns after a number of steps that is within both the
bound of the queue and the atomic turn's allowance, and allowing more steps changes nothing. -/
theorem Inv.handler_alone (I : Inv s) (h : s.InHandler (.drain .s1)) :
    ∃ n t, n ≤ 4 * s.occ + 4 ∧ n ≤ s.handlerFuel ∧ Drained s t ∧
      ∀ k, n ≤ k → runHandler k s = .next t.clearFlag.returnFromInterrupt := by
  obtain ⟨n, t, e, hn, hs, hexit, hd⟩ := (I.drainable (I.hand_enabled h.hand).1).pass_drains
  refine ⟨n + 3, t, by omega, ?_, hd, fun k hk => ?_⟩
  · have hcount := hd.count_le hs hexit
    have hroom : s.txRoom ≤ s.params.dTx := Nat.sub_le _ _
    show n + 3 ≤ 4 * s.params.dTx + 8
    omega
  · have hrun := runHandler_returns (k := k - (n + 3)) h hs hexit hd
    rwa [show k - (n + 3) + 3 + n = k by omega] at hrun

/-- Settles O48: the exit, `CLRF` and `IRET` are three steps beside the moves of the pass. -/
theorem handlerAloneReturns : Obligations.HandlerAloneReturns := by
  unfold Obligations.HandlerAloneReturns
  intro s I h
  obtain ⟨n, t, hn, -, hd, hrun⟩ := I.handler_alone h
  exact ⟨_, hrun _ hn, rfl, hd.fault.trans h.fault, rfl, hd.pc, hd.mstate, hd.ie, hd.txq, hd.occ⟩

/-- With `ISR_ATOMIC_WRT_LINE`, entry and the handler's run are one turn (R105). -/
theorem takeTurn_entry_atomic (h : s.params.isrAtomic = true) :
    takeTurn .entry s = runHandler s.handlerFuel s.enterInterrupt :=
  if_pos h

/-- Settles O49: the atomic turn's allowance and the separate steps' both reach past `IRET`, which ends either run. -/
theorem atomicHandlerIsItsSeparateSteps : Obligations.AtomicHandlerIsItsSeparateSteps := by
  unfold Obligations.AtomicHandlerIsItsSeparateSteps
  refine ⟨fun s I hf ha hturn => ?_, fun s ha hc => by simp [State.enabled, ha, hc]⟩
  obtain ⟨m, hirq⟩ := enabled_entry.mp (State.chosenTurn_enabled hturn)
  have I' : Inv s.spend.enterInterrupt := I.spend.micro (.entry ⟨m.fault, m.ctx⟩ hirq)
  obtain ⟨n, t, hocc, hfuel, hd, hrun⟩ := I'.handler_alone ⟨hf, rfl, rfl⟩
  refine ⟨t.clearFlag.returnFromInterrupt, ?_, rfl, hd.fault.trans hf, hrun _ hocc⟩
  calc step s
    _ = takeTurn .entry s.spend := step_turn I.params_ok hf hturn
    _ = runHandler s.spend.handlerFuel s.spend.enterInterrupt := takeTurn_entry_atomic ha
    _ = .next t.clearFlag.returnFromInterrupt := hrun _ hfuel

end Sys2Proof.Machine
end

section
/-! PROOF. The peripheral (42_peripheral.md): `ready()` and `push(b)` (O50), and what a step of `LINE` does to the oldest
byte and the flag (O51). -/

namespace Sys2Proof.Machine

variable {s : State} {b : Byte} {rest : List Byte}

/-! ### Ready and push (R116, R117, R121) -/

/-- Without `txen` the peripheral takes no byte (R116, R121). -/
theorem not_ready_of_txen (h : s.txen = false) : s.ready = false :=
  Bool.eq_false_iff.mpr fun hr => Bool.eq_false_iff.mp h (ready_iff.mp hr).1

/-- Without `txen` the line has no step (R121). -/
theorem not_enabled_line_of_txen (h : s.txen = false) : s.enabled .line = false :=
  Bool.eq_false_iff.mpr fun he => Bool.eq_false_iff.mp h (enabled_line.mp he).2.1

/-- Settles O50. -/
theorem readyAndPush : Obligations.ReadyAndPush := by
  unfold Obligations.ReadyAndPush
  exact fun s b => ⟨ready_iff, fun h => push_ready h b, fun h => push_not_ready h b,
    fun h => ⟨not_ready_of_txen h, not_enabled_line_of_txen h⟩⟩

/-! ### The line's step (R118 to R120) -/

/-- When a `line_step` ends by setting `tc`: always under PER_BYTE (R119), under ON_IDLE when nothing is left (R120). -/
theorem setsTc_iff {policy : TcPolicy} {left : List Byte} :
    setsTc policy left = true ↔ policy = .perByte ∨ policy = .onIdle ∧ left = [] := by
  cases policy with
  | perByte => simp [setsTc]
  | onIdle => simp [setsTc]

/-- `LINE`'s turn sends the head of `txq` (R118). -/
theorem step_line (hp : s.params.check = none) (hc : s.chosenTurn = some .line)
    (hq : s.txq = b :: rest) : step s = .next (transmit s.spend b rest) := by
  have hf : s.fault = none := (enabled_line.mp (State.chosenTurn_enabled hc)).1
  calc step s
    _ = .next (lineStep s.spend) := step_turn hp hf hc
    _ = .next (transmit s.spend b rest) := congrArg _ (lineStep_cons (s := s.spend) hq)

/-- Settles O51: the two clauses are the two values of `setsTc`. -/
theorem lineSendsTheOldestByte : Obligations.LineSendsTheOldestByte := by
  unfold Obligations.LineSendsTheOldestByte
  intro s b rest hp hc hq
  rw [step_line hp hc hq]
  refine ⟨fun hset => ?_, fun hidle hrest => ?_⟩
  · have hs : setsTc s.spend.params.tcPolicy rest = true := setsTc_iff.mpr hset
    rw [transmit_setting hs, List.append_assoc]
    rfl
  · have hs : setsTc s.spend.params.tcPolicy rest = false := by
      rw [Bool.eq_false_iff, ne_eq, setsTc_iff]
      simp [hidle, hrest]
    rw [transmit_leaving hs]
    rfl

end Sys2Proof.Machine
end

section
/-! PROOF. The bound on runs (R153): every atomic step lowers `State.bound`, hence every step of the machine does
(O10). -/

namespace Sys2Proof.Machine

variable {s t : State} {turn : Turn} {m : MState} {i : Instr} {d d' : DrainLabel}

/-! ### The bound, split by who lowers it -/

/-- What the command at `pc` still costs at a micro-state: a whole command before its first step. -/
def MState.cost (m : MState) : Nat := if m = .idle then 20 else m.rank

/-- The mainline's part of the bound. -/
def State.mainlineBound (s : State) : Nat := 20 * s.commandsLeft + s.mstate.rank

/-- The part of the bound that counts bytes: those in the buffer not pushed yet, and those in the peripheral. -/
def State.bytesBound (s : State) : Nat := 11 * s.unpushedCount + 7 * s.txq.length

/-- The bound apart from the step that raises a fault. -/
def State.work (s : State) : Nat := s.mainlineBound + s.interruptBound + s.bytesBound

theorem State.bound_eq_work (s : State) : s.bound = s.work + if s.fault = none then 1 else 0 := by
  unfold State.bound State.work State.mainlineBound State.bytesBound
  omega

/-- Where nothing has faulted, a step that lowers the work lowers the bound. -/
theorem bound_lt_of_work (hf : s.fault = none) (h : t.work < s.work) : t.bound < s.bound := by
  rw [State.bound_eq_work, State.bound_eq_work, if_pos hf]
  split <;> omega

/-- Raising a fault takes the bound's last unit and nothing else (R130). -/
theorem bound_raise_lt (hf : s.fault = none) (r : FaultRecord) : (s.raise r).bound < s.bound := by
  have hw : (s.raise r).work = s.work := by rw [State.raise_of_none hf]; rfl
  rw [State.bound_eq_work, State.bound_eq_work, hw, if_pos hf, if_neg (by simp [State.raise_of_none hf])]
  exact Nat.lt_succ_self _

/-! ### The mainline's part -/

theorem MState.cost_pos (m : MState) : 0 < m.cost := by
  cases m <;> simp [MState.cost, MState.rank]

theorem MState.rank_le_cost (m : MState) : m.rank ≤ m.cost := by
  cases m <;> simp [MState.cost, MState.rank]

/-- No command costs more once begun than before its first step. -/
theorem MState.rank_le_cost_idle (m : MState) : m.rank ≤ MState.cost .idle := by
  cases m with
  | primeP2 d | drain d => cases d <;> simp [MState.cost, MState.rank, DrainLabel.rank]
  | _ => simp [MState.cost, MState.rank]

theorem rank_le_cost_of_begins (h : s.Begins ∨ s.mstate = m) : m.rank ≤ s.mstate.cost := by
  rcases h with ⟨hm, -⟩ | hm
  · rw [hm]; exact m.rank_le_cost_idle
  · rw [hm]; exact m.rank_le_cost

theorem rank_le_cost_of_drainAt (h : s.DrainAt d) : (MState.drain d).rank ≤ s.mstate.cost :=
  rank_le_cost_of_begins (h.imp And.left id)

theorem mainlineBound_of_idle (h : s.mstate = .idle) : s.mainlineBound = 20 * (s.prog.length - s.pc) := by
  simp [State.mainlineBound, State.commandsLeft, MState.rank, h]

/-- With a command at `pc`, the mainline's part is that command's cost and 20 for each later one. -/
theorem mainlineBound_of_lt (h : s.pc < s.prog.length) :
    s.mainlineBound = 20 * (s.prog.length - (s.pc + 1)) + s.mstate.cost := by
  by_cases hm : s.mstate = .idle
  · rw [mainlineBound_of_idle hm, MState.cost, if_pos hm]; omega
  · simp only [State.mainlineBound, State.commandsLeft, MState.cost, if_neg hm, Nat.sub_sub]

/-- A mainline step that goes on inside the command lowers the bound if the ranks and the bytes say so. -/
theorem bound_lt_of_goes (o : s.Main) (hb : s.Fetches i) (hm : t.mstate ≠ .idle) (hg : t.prog = s.prog)
    (hp : t.pc = s.pc) (hi : t.interruptBound = s.interruptBound) (hc : m.rank ≤ s.mstate.cost)
    (hlt : t.mstate.rank + t.bytesBound < m.rank + s.bytesBound) : t.bound < s.bound := by
  have hpc := hb.pc_lt
  refine bound_lt_of_work o.fault ?_
  rw [State.work, State.work, mainlineBound_of_lt hpc, mainlineBound_of_lt (by rwa [hg, hp]), hg, hp, hi,
    MState.cost.eq_def t.mstate, if_neg hm]
  omega

/-- A mainline step that completes the command lowers the bound unless the bytes outweigh what the command costs. -/
theorem bound_lt_of_completes (o : s.Main) (hb : s.Fetches i) (hm : t.mstate = .idle)
    (hg : t.prog = s.prog) (hp : t.pc = s.pc + 1) (hi : t.interruptBound = s.interruptBound)
    (hlt : t.bytesBound < s.mstate.cost + s.bytesBound) : t.bound < s.bound := by
  refine bound_lt_of_work o.fault ?_
  rw [State.work, State.work, mainlineBound_of_lt hb.pc_lt, mainlineBound_of_idle hm, hg, hp, hi]
  omega

/-! ### The bytes' part -/

/-- The bytes' part stays while the occupancy and `txq` do and no pass comes to or leaves its S4. -/
theorem bytesBound_congr (hm : t.mstate.afterPush = s.mstate.afterPush)
    (hh : t.hstate.afterPush = s.hstate.afterPush) (ho : t.occ = s.occ) (hq : t.txq = s.txq) :
    t.bytesBound = s.bytesBound := by
  unfold State.bytesBound State.unpushedCount State.afterPush
  rw [hm, hh, ho, hq]

/-- A step that completes a command and moves no byte lowers the bound. -/
theorem bound_lt_of_completes_quietly (o : s.Main) (hb : s.Fetches i) (hm : t.mstate = .idle)
    (hg : t.prog = s.prog) (hp : t.pc = s.pc + 1) (hi : t.interruptBound = s.interruptBound)
    (ha : s.mstate.afterPush = false) (hh : t.hstate.afterPush = s.hstate.afterPush)
    (ho : t.occ = s.occ) (hq : t.txq = s.txq) : t.bound < s.bound := by
  refine bound_lt_of_completes o hb hm hg hp hi ?_
  rw [bytesBound_congr (by rw [hm, ha]; rfl) hh ho hq]
  exact Nat.lt_add_of_pos_left (MState.cost_pos _)

/-- A step inside a command that moves no byte lowers the bound with its rank. -/
theorem bound_lt_of_goes_quietly (o : s.Main) (hb : s.Fetches i) (hm : t.mstate ≠ .idle)
    (hg : t.prog = s.prog) (hp : t.pc = s.pc) (hi : t.interruptBound = s.interruptBound)
    (hc : m.rank ≤ s.mstate.cost) (hr : t.mstate.rank < m.rank)
    (ha : t.mstate.afterPush = s.mstate.afterPush) (hh : t.hstate.afterPush = s.hstate.afterPush)
    (ho : t.occ = s.occ) (hq : t.txq = s.txq) : t.bound < s.bound := by
  refine bound_lt_of_goes o hb hm hg hp hi hc ?_
  rw [bytesBound_congr ha hh ho hq]
  exact Nat.add_lt_add_right hr _

/-- A move of a drain pass: a push is worth more than the three other moves of its round. -/
theorem Inv.passGoes_lowers (I : Inv s) (hk : s.PassKnows d) (h : PassGoes s d d' t)
    (hs : s.afterPush = d.afterPush) {m : MState} {x : HState}
    (ht : State.afterPush { t with mstate := m, hstate := x } = d'.afterPush) :
    d'.rank + State.bytesBound { t with mstate := m, hstate := x } < d.rank + s.bytesBound := by
  unfold State.bytesBound State.unpushedCount
  rw [hs, ht]
  cases h with
  | ready | nonempty => exact Nat.add_lt_add_right (by decide) _
  | push b hr hb h =>
    have ho := I.occ_pop hk.2
    show 3 + (11 * (s.occ - 1) + 7 * (s.txq ++ [b]).length) < 0 + (11 * s.occ + 7 * s.txq.length)
    rw [List.length_append, List.length_singleton]
    omega
  | advance b =>
    have ho := I.occ_pop hk.1
    show 2 + (11 * State.occ { s with rc := s.next s.rc } + 7 * s.txq.length)
      < 3 + (11 * (s.occ - 1) + 7 * s.txq.length)
    omega

/-- `ENQB` S4 adds a queued byte, which its rank allows for. -/
theorem Inv.publish_bytes (I : Inv s) (m : s.Main) {b : Byte} {r : Option Nat} {n : Nat}
    (hs : s.mstate = .enqbS4 r n) :
    State.bytesBound ({ s with wc := n }.log (.enq b)).complete = s.bytesBound + 11 := by
  obtain ⟨⟨b', hu, -⟩, hne, -⟩ := I.mainline_at hs
  obtain rfl : n = s.next s.wc := hu.next_eq
  have ha : s.afterPush = false := by rw [I.afterPush_main m, hs]; rfl
  have ha' : State.afterPush ({ s with wc := s.next s.wc }.log (.enq b)).complete = false :=
    afterPush_eq_mstate (I.handler_start m)
  have ho : State.occ ({ s with wc := s.next s.wc }.log (.enq b)).complete = s.occ + 1 :=
    occupancy_next_left I.wc_lt I.rc_lt hne
  have hq : ({ s with wc := s.next s.wc }.log (.enq b)).complete.txq = s.txq := rfl
  rw [State.bytesBound, State.bytesBound, State.unpushedCount, State.unpushedCount, ha, ha', ho, hq]
  simp only [Bool.false_eq_true, if_false]
  omega

/-! ### The interrupt's part -/

theorem interruptBound_mainline (h : s.ctx = .mainline) : s.interruptBound = if s.tc then 6 else 0 := by
  unfold State.interruptBound; rw [h]

/-- A step of a drain pass leaves it to the handler to lower the interrupt's part. -/
theorem PassGoes.interruptBound (h : PassGoes s d d' t) (m : MState) :
    (t.goto m).interruptBound = s.interruptBound := by
  cases h <;> rfl

/-- A byte that finishes may cause one handler run, and costs no more (R119, R120). -/
theorem interruptBound_transmit_le (b : Byte) (rest : List Byte) :
    (transmit s b rest).interruptBound ≤ s.interruptBound + 6 := by
  rw [transmit_eq]
  unfold State.interruptBound
  cases s.ctx with
  | mainline => cases s.tc <;> cases setsTc s.params.tcPolicy rest <;> simp
  | interrupt =>
    cases s.hstate with
    | drain | clrf => simp
    | iret => cases s.tc <;> cases setsTc s.params.tcPolicy rest <;> simp

/-- Inside the interrupt context the handler's position is the interrupt's part, until `CLRF` has run. -/
theorem interruptBound_hand (hc : s.ctx = .interrupt) {x : HState} (hs : s.hstate = x) (hx : x ≠ .iret) :
    s.interruptBound = x.rank := by
  unfold State.interruptBound
  rw [hc, hs]
  cases x with
  | drain | clrf => rfl
  | iret => exact absurd rfl hx

/-- Before `IRET` a `tc` that is set again will cost another handler run, as it will after. -/
theorem interruptBound_iret (hc : s.ctx = .interrupt) (hs : s.hstate = .iret) :
    s.interruptBound = 1 + if s.tc then 6 else 0 := by
  unfold State.interruptBound
  rw [hc, hs]
  rfl

/-! ### Every step -/

/-- A step that is not the mainline's lowers the bound by what it takes off the interrupt's and the bytes' parts. -/
theorem bound_lt_of_keeps (hf : s.fault = none) (k : KeepsMainline s t)
    (h : t.interruptBound + t.bytesBound < s.interruptBound + s.bytesBound) : t.bound < s.bound := by
  have hm : t.mainlineBound = s.mainlineBound := by
    unfold State.mainlineBound State.commandsLeft
    rw [k.prog, k.pc, k.mstate]
  refine bound_lt_of_work hf ?_
  rw [State.work, State.work, hm]
  omega

/-- A step that is not the mainline's and moves no byte lowers the bound with the interrupt's part. -/
theorem bound_lt_of_keeps_quietly (hf : s.fault = none) (k : KeepsMainline s t)
    (hi : t.interruptBound < s.interruptBound) (hh : t.hstate.afterPush = s.hstate.afterPush)
    (ho : t.occ = s.occ) (hq : t.txq = s.txq) : t.bound < s.bound := by
  refine bound_lt_of_keeps hf k ?_
  rw [bytesBound_congr (congrArg _ k.mstate) hh ho hq]
  exact Nat.add_lt_add_right hi _

/-- Every mainline step lowers the bound: the command's cost pays for it, the publish and the push included. -/
theorem Inv.mainline_lowers (I : Inv s) (h : Micro s .mainline t) : t.bound < s.bound := by
  cases h with
  | raise m | primeRaise m | drainRaise m => exact bound_raise_lt m.fault _
  | cfg m hb hi =>
    exact bound_lt_of_completes_quietly m hb rfl rfl rfl rfl (by rw [hi]; rfl) rfl rfl rfl
  | enqbDropTruncated m b hb hs =>
    exact bound_lt_of_completes_quietly m hb rfl rfl rfl rfl (mstate_afterPush_of_begins hs rfl) rfl rfl rfl
  | enqbDropFull m b hb r n hs | primeEnable m hb hs =>
    exact bound_lt_of_completes_quietly m hb rfl rfl rfl rfl (by rw [hs]; rfl) rfl rfl rfl
  | enqe m hb hs | ien m e hb hs | empty m hb hs | occ m hb hs =>
    exact bound_lt_of_completes_quietly m hb rfl rfl rfl rfl (by rw [hs.1]; rfl) rfl rfl rfl
  | drainExit m hb d hs h =>
    have ha : s.mstate.afterPush = false := (mstate_afterPush_of_drainAt hs).trans h.not_afterPush
    exact bound_lt_of_completes_quietly m hb rfl rfl rfl rfl ha rfl rfl rfl
  | enqbPublish m b hb r n hs =>
    refine bound_lt_of_completes m hb rfl rfl rfl rfl ?_
    rw [I.publish_bytes m hs, hs]
    show s.bytesBound + 11 < 12 + s.bytesBound
    omega
  | enqbSnapshot m b hb hs | enqbClaim m b hb hs | primeDisable m hb hs =>
    exact bound_lt_of_goes_quietly m hb nofun rfl rfl rfl (rank_le_cost_of_begins hs)
      (by simp [State.goto, MState.rank, DrainLabel.rank]) (mstate_afterPush_of_begins hs rfl).symm rfl rfl rfl
  | enqbFits m b hb r n hs | enqbStore m b hb r n hs =>
    exact bound_lt_of_goes_quietly m hb nofun rfl rfl rfl (rank_le_cost_of_begins (.inr hs))
      (by simp [State.goto, MState.rank]) (by rw [hs]; rfl) rfl rfl rfl
  | primeExit m hb d hs h =>
    exact bound_lt_of_goes_quietly m hb nofun rfl rfl rfl (rank_le_cost_of_begins (.inr hs))
      (by simp [State.goto, MState.rank]) (by rw [hs]; exact h.not_afterPush.symm) rfl rfl rfl
  | primePass m hb d d' s' hs h =>
    obtain ⟨-, -, -, hk⟩ := I.mainline_at hs
    have k := h.keepsMainline
    have hlt : d'.rank + (s'.goto (.primeP2 d')).bytesBound < d.rank + s.bytesBound :=
      I.passGoes_lowers hk h (by rw [I.afterPush_main m, hs]; rfl)
        (afterPush_eq_mstate (h.hstate.trans (I.handler_start m)))
    refine bound_lt_of_goes m hb nofun k.prog k.pc (h.interruptBound _)
      (rank_le_cost_of_begins (.inr hs)) ?_
    show d'.rank + 2 + _ < d.rank + 2 + _
    omega
  | drainPass m hb d d' s' hs h =>
    obtain ⟨-, -, hk⟩ := I.drain_at hs
    have k := h.keepsMainline
    have hlt : d'.rank + (s'.goto (.drain d')).bytesBound < d.rank + s.bytesBound :=
      I.passGoes_lowers hk h ((I.afterPush_main m).trans (mstate_afterPush_of_drainAt hs))
        (afterPush_eq_mstate (h.hstate.trans (I.handler_start m)))
    refine bound_lt_of_goes m hb nofun k.prog k.pc (h.interruptBound _)
      (rank_le_cost_of_drainAt hs) ?_
    show d'.rank + 1 + _ < d.rank + 1 + _
    omega

/-- Every step of the handler lowers the bound (R102). -/
theorem Inv.handler_lowers (I : Inv s) (h : Micro s .handler t) : t.bound < s.bound := by
  have k := h.keepsMainline (by decide)
  cases h with
  | handlerRaise m => exact bound_raise_lt m.fault _
  | handlerPass m d d' s' hs h =>
    obtain ⟨-, hi, -, hk⟩ := I.handler_at m hs
    have hlt : d'.rank + (s'.handlerAt (.drain d')).bytesBound < d.rank + s.bytesBound :=
      I.passGoes_lowers hk h (by rw [I.afterPush_hand m, hs]; rfl)
        (afterPush_eq_hstate (by rw [h.keepsMainline.mstate, I.mstate_afterPush hi]))
    have hs' : (s'.handlerAt (.drain d')).interruptBound = d'.rank + 3 :=
      interruptBound_hand (s := s'.handlerAt (.drain d')) (h.ctx.trans m.ctx) rfl nofun
    have hsb : s.interruptBound = d.rank + 3 := interruptBound_hand m.ctx hs nofun
    refine bound_lt_of_keeps m.fault k ?_
    show (s'.handlerAt (.drain d')).interruptBound + (s'.handlerAt (.drain d')).bytesBound < _
    omega
  | handlerExit m d hs h =>
    have hlt : (s.handlerAt .clrf).interruptBound < s.interruptBound := by
      rw [interruptBound_hand (s := s.handlerAt .clrf) (x := .clrf) m.ctx rfl nofun,
        interruptBound_hand m.ctx hs nofun]
      simp [HState.rank]
    exact bound_lt_of_keeps_quietly m.fault k hlt (by rw [hs]; exact h.not_afterPush.symm) rfl rfl
  | clrf m hs =>
    have hlt : (s.clearFlag.handlerAt .iret).interruptBound < s.interruptBound := by
      rw [interruptBound_iret (s := s.clearFlag.handlerAt .iret) m.ctx rfl, interruptBound_hand m.ctx hs nofun]
      exact Nat.lt_succ_self 1
    exact bound_lt_of_keeps_quietly m.fault k hlt (by rw [hs]; rfl) rfl rfl
  | iret m hs =>
    have hlt : s.returnFromInterrupt.interruptBound < s.interruptBound := by
      rw [interruptBound_iret m.ctx hs, interruptBound_mainline rfl]
      exact Nat.lt_add_of_pos_left Nat.one_pos
    exact bound_lt_of_keeps_quietly m.fault k hlt (by rw [hs]; rfl) rfl rfl

/-- Entry turns the pending flag's worth into the handler's steps (R141). -/
theorem Inv.entry_lowers (I : Inv s) (h : Micro s .entry t) : t.bound < s.bound := by
  have k := h.keepsMainline (by decide)
  cases h with
  | entry m hirq =>
    have htc : s.tc = true := by
      simp only [State.irq, Bool.and_eq_true] at hirq
      exact hirq.2
    have hlt : s.enterInterrupt.interruptBound < s.interruptBound := by
      rw [interruptBound_mainline m.ctx, if_pos htc,
        interruptBound_hand (s := s.enterInterrupt) (x := .drain .s1) rfl rfl nofun]
      decide
    exact bound_lt_of_keeps_quietly m.fault k hlt (by rw [I.handler_start m]; rfl) rfl rfl

/-- `LINE` takes a byte, worth more than the handler run it may cause (R118). -/
theorem line_lowers (h : Micro s .line t) : t.bound < s.bound := by
  have k := h.keepsMainline (by decide)
  cases h with
  | line hf _ b rest hq =>
    have hi := interruptBound_transmit_le (s := s) b rest
    have hb : (transmit s b rest).bytesBound + 7 = s.bytesBound := by
      rw [transmit_eq]
      unfold State.bytesBound
      rw [hq, List.length_cons]
      show 11 * s.unpushedCount + 7 * rest.length + 7 = 11 * s.unpushedCount + 7 * (rest.length + 1)
      omega
    exact bound_lt_of_keeps hf k (by omega)

/-- Every atomic step lowers the bound. -/
theorem Inv.micro_lowers (I : Inv s) (h : Micro s turn t) : t.bound < s.bound := by
  cases turn with
  | mainline => exact I.mainline_lowers h
  | handler => exact I.handler_lowers h
  | entry => exact I.entry_lowers h
  | line => exact line_lowers h

/-- Handler steps, however many, never raise the bound. -/
theorem Inv.handlerSteps_bound_le (I : Inv s) (h : HandlerSteps s t) : t.bound ≤ s.bound := by
  induction h using Relation.ReflTransGen.head_induction_on with
  | refl => exact le_rfl
  | head hm _ ih => exact (ih (I.micro hm)).trans (I.micro_lowers hm).le

/-- The step of a turn, the atomic handler's too, lowers the bound. -/
theorem Inv.turnSteps_lowers (I : Inv s) (h : TurnSteps turn s t) : t.bound < s.bound := by
  cases turn with
  | mainline | line => exact I.micro_lowers h
  | handler | entry =>
    obtain ⟨u, hu, hs, -⟩ := h
    exact ((I.micro hu).handlerSteps_bound_le hs).trans_lt (I.micro_lowers hu)

/-- At launch the bound is the worth of the commands, and of the one fault that may end the run (R164). -/
theorem bound_launch (p : Params) (prog : List Word) (sched : List Turn) :
    (State.launch p prog sched).bound = 20 * prog.length + 1 := by
  have hocc : (State.launch p prog sched).occ = 0 := by
    show occupancy p.capacity 0 0 = 0
    simp [occupancy]
  have hbytes : (State.launch p prog sched).bytesBound = 0 := by
    unfold State.bytesBound State.unpushedCount
    rw [hocc, Nat.zero_sub]
    rfl
  rw [State.bound_eq_work, State.work, mainlineBound_of_idle rfl, interruptBound_mainline rfl, hbytes]
  rfl

/-- Settles O10: the turn taken lowers the bound, and using up the schedule leaves it. -/
theorem everyStepLowersTheBound : Obligations.EveryStepLowersTheBound := by
  unfold Obligations.EveryStepLowersTheBound
  refine ⟨fun s t I h => ?_, bound_launch⟩
  obtain ⟨turn, -, ht⟩ | hrest := turnSteps_of_step h
  · exact .inl (I.spend.turnSteps_lowers ht)
  · exact .inr hrest

end Sys2Proof.Machine
end

section
/-! PROOF. Parameters, entry and model faults (60_exceptions.md): a broken parameter set is refused (O6), when entry is
enabled (O26), what only the mainline touches (O22), and which faults a command raises, in order (O27, O29). -/

namespace Sys2Proof.Machine

variable {s : State} {i : Instr} {body : StepOutcome} {d : DrainLabel}

/-! ### Refused parameters (R131) -/

/-- The parameter of this name breaks its own bounds (R5, R6, R8). -/
def Breaks (p : Params) : ParamName → Prop
  | .capacity => p.capacity < 2 ∨ 65536 < p.capacity
  | .cursorWidth => 2 ^ p.cursorWidth < p.capacity ∨ 16 < p.cursorWidth
  | .dTx => p.dTx < 1

/-- A parameter that is named breaks its bounds. -/
theorem breaks_of_check {p : Params} {n : ParamName} (h : p.check = some n) : Breaks p n := by
  unfold Params.check at h
  split at h
  case isTrue hC => cases h; exact hC
  case isFalse =>
    split at h
    case isTrue hW => cases h; exact hW.symm
    case isFalse =>
      split at h
      case isTrue hD => cases h; exact hD
      case isFalse => cases h

/-- Parameters that are not refused all keep their bounds. -/
theorem not_breaks_of_check {p : Params} (h : p.check = none) (n : ParamName) : ¬ Breaks p n := by
  unfold Params.check at h
  split_ifs at h with hC hW hD
  cases n with
  | capacity => exact hC
  | cursorWidth => exact fun hb => hW hb.symm
  | dTx => exact hD

theorem build_refused {p : Params} {prog : List Word} {sched : List Turn} {n : ParamName}
    (h : p.check = some n) : build p prog sched = .refused (.refusedConfig n) := by
  have h : (State.launch p prog sched).params.check = some n := h
  unfold build configured
  rw [h]

theorem build_launches {p : Params} {prog : List Word} {sched : List Turn} (h : p.check = none) :
    build p prog sched = .next (State.launch p prog sched) := by
  have h : (State.launch p prog sched).params.check = none := h
  unfold build configured
  rw [h]

/-- Settles O6: `check` names a parameter exactly where one breaks its bounds. -/
theorem brokenParametersAreRefused : Obligations.BrokenParametersAreRefused := by
  unfold Obligations.BrokenParametersAreRefused
  refine fun p prog sched => ⟨fun hbroken => ?_, fun hok => ?_⟩
  · cases hc : p.check with
    | none =>
      have hC := not_breaks_of_check hc .capacity
      have hW := not_breaks_of_check hc .cursorWidth
      have hD := not_breaks_of_check hc .dTx
      simp only [Breaks] at hC hW hD
      omega
    | some n =>
      have hb := breaks_of_check hc
      exact ⟨n, build_refused hc, fun s hs => step_refused (by rw [hs, hc]), fun hn => by subst hn; exact hb,
        fun hn => by subst hn; exact hb, fun hn => by subst hn; exact hb⟩
  · cases hc : p.check with
    | none => exact build_launches hc
    | some n =>
      have hb := breaks_of_check hc
      cases n <;> simp only [Breaks] at hb <;> omega

/-! ### Entry and the other turns (R140, R141, R147) -/

/-- In the interrupt context neither entry nor the mainline is enabled (R140, R143). -/
theorem not_enabled_of_hand (m : s.Hand) : s.enabled .entry = false ∧ s.enabled .mainline = false := by
  simp [State.enabled, State.entryEnabled, m.ctx]

/-- Settles O26. -/
theorem entryIsEnabledExactlyOnRequest : Obligations.EntryIsEnabledExactlyOnRequest := by
  unfold Obligations.EntryIsEnabledExactlyOnRequest
  refine fun s => ⟨?_, fun h => not_enabled_of_hand (enabled_handler.mp h), fun hf turn =>
    Bool.eq_false_iff.mpr (mt State.fault_of_enabled hf)⟩
  rw [enabled_entry, State.irq, Bool.and_eq_true, Bool.and_eq_true, and_assoc]
  exact ⟨fun ⟨m, h⟩ => ⟨m.fault, m.ctx, h⟩, fun ⟨hf, hc, h⟩ => ⟨⟨hf, hc⟩, h⟩⟩

/-- Settles O22: a turn that is not the mainline's keeps all that the mainline owns. -/
theorem otherTurnsLeaveTheMainlineInPlace : Obligations.OtherTurnsLeaveTheMainlineInPlace := by
  unfold Obligations.OtherTurnsLeaveTheMainlineInPlace
  intro s t h hne
  obtain ⟨hc, -⟩ | k := step_mainline_or_keeps h
  · exact absurd hc hne
  · exact ⟨k.pc, k.mstate, k.wc, k.storage, k.trunc, k.ie, k.cfg, k.txen, k.rsp⟩

/-! ### The faults at the start of a command (R132 to R136) -/

/-- The prologue stops a command other than `CFG` before `CFG` has run (R133). -/
theorem prologue_unconfigured (hc : s.cfg = false) (hi : i ≠ .cfg) :
    prologue i s body = .next (s.raise (.notConfigured s.pc (encode i))) :=
  if_pos ⟨hc, hi⟩

/-- The first step of a one-step command is behind the prologue (R80). -/
theorem State.InMainline.oneStep_idle (h : s.InMainline .idle) (hi : i.issuableIn .mainline = true) :
    oneStep i s body = prologue i s body := by
  unfold oneStep
  rw [h.issue_eq hi, h.mstate]

/-- S1 of `ENQB` always answers a state (a hold answers the unchanged one). -/
theorem enqbS1_answers (b : Byte) (s : State) : ∃ t, enqbS1 b s = .next t := by
  unfold enqbS1
  split <;> split <;> exact ⟨_, rfl⟩

/-- A mainline `DRAIN`'s first step is behind the prologue: its own check, then S1 of the pass (R87). -/
theorem exec_drain_at_idle (h : s.InMainline .idle) :
    exec .drain s = prologue .drain s
      (if s.ie then .next (s.raise (.drainRace s.pc)) else drainMainlinePass .s1 s) := by
  refine (h.issue_eq rfl).trans ?_
  rw [h.ctx]
  unfold drainMainline
  rw [h.mstate]

/-- A step of a drain pass inside a command answers a state, at S3 if `rc` names a slot. -/
theorem runPass_answers {going : DrainLabel → State → State} {exited : State → State}
    (h : d = .s3 → s.rc < s.params.capacity) : ∃ t, runPass d s going exited = .next t := by
  obtain ⟨d', s', -, hp⟩ | ⟨-, hp⟩ | ⟨r, -, hp⟩ | ⟨-, hd, hr⟩ := drainPass_cases d s
  · exact ⟨_, runPass_goes hp⟩
  · exact ⟨_, runPass_exits hp⟩
  · exact ⟨_, runPass_raises hp⟩
  · exact absurd (h hd) (Nat.not_lt.mpr hr)

/-- At the start of a command, every mainline command is the prologue and then a step that answers a state (R80). -/
theorem exec_at_idle (h : s.InMainline .idle) (hi : i.issuableIn .mainline = true) :
    ∃ t, exec i s = prologue i s (.next t) := by
  cases i with
  | cfg => cases hc : s.cfg <;> exact ⟨_, (h.oneStep_idle hi).trans (by rw [hc]; rfl)⟩
  | enqb b =>
    obtain ⟨t, ht⟩ := enqbS1_answers b s
    refine ⟨t, (h.issue_eq hi).trans ?_⟩
    rw [h.mstate, ht]
  | prime =>
    refine ⟨(s.setEnable false).goto (.primeP2 .s1), (h.issue_eq hi).trans ?_⟩
    rw [h.mstate]
    rfl
  | drain =>
    obtain ⟨t, ht⟩ := runPass_answers (d := .s1) nofun
    rw [exec_drain_at_idle h]
    cases s.ie with
    | true => exact ⟨_, rfl⟩
    | false => exact ⟨t, congrArg _ ht⟩
  | enqe | ien | empty | occ => exact ⟨_, h.oneStep_idle hi⟩
  | clrf | iret => cases hi

/-- Before `CFG` every other mainline command raises `F_NOT_CONFIGURED` (R133). -/
theorem exec_unconfigured (h : s.InMainline .idle) (hc : s.cfg = false)
    (hi : i.issuableIn .mainline = true) (hne : i ≠ .cfg) :
    exec i s = .next (s.raise (.notConfigured s.pc (encode i))) := by
  obtain ⟨t, ht⟩ := exec_at_idle h hi
  exact ht.trans (prologue_unconfigured hc hne)

theorem exec_cfg_configured (h : s.InMainline .idle) (hc : s.cfg = true) :
    exec .cfg s = .next (s.raise (.reconfigure s.pc)) := by
  calc exec .cfg s
    _ = if s.cfg then .next (s.raise (.reconfigure s.pc)) else .next s.configure.complete :=
      (h.oneStep_idle rfl).trans (prologue_ok (.inr rfl))
    _ = .next (s.raise (.reconfigure s.pc)) := if_pos hc

theorem exec_drain_race (h : s.InMainline .idle) (hc : s.cfg = true) (hie : s.ie = true) :
    exec .drain s = .next (s.raise (.drainRace s.pc)) := by
  calc exec .drain s
    _ = if s.ie then .next (s.raise (.drainRace s.pc)) else drainMainlinePass .s1 s :=
      (exec_drain_at_idle h).trans (prologue_ok (.inl hc))
    _ = .next (s.raise (.drainRace s.pc)) := if_pos hie

/-- The mainline may issue every command but the handler's two (R73, R148). -/
theorem issuableIn_mainline (hclrf : i ≠ .clrf) (hiret : i ≠ .iret) : i.issuableIn .mainline = true := by
  cases i with
  | clrf => exact absurd rfl hclrf
  | iret => exact absurd rfl hiret
  | _ => rfl

/-- Settles O27: the decoder, `issue`, the prologue and the command's own check, each where those before it pass. -/
theorem faultsAreRaisedInOrder : Obligations.FaultsAreRaisedInOrder := by
  unfold Obligations.FaultsAreRaisedInOrder
  intro s h
  have hraise := State.raise_of_none h.fault
  refine ⟨fun w e hd => ?_, fun w i => runWord_legal, exec_wrong_context h.fault (by rw [h.ctx]; rfl),
    exec_wrong_context h.fault (by rw [h.ctx]; rfl), fun i hc hcfg hclrf hiret => ?_, fun hc => ?_,
    fun hc hie => ?_⟩
  · rw [runWord_illegal hd h.mstate, hraise]
  · rw [exec_unconfigured h hc (issuableIn_mainline hclrf hiret) hcfg, hraise]
  · rw [exec_cfg_configured h hc, hraise]
  · rw [exec_drain_race h hc hie, hraise]

/-! ### The faults of a drain pass (R137, R138) -/

/-- A command at its drain pass's S3, whichever of the three places, raises what the pass raises (R106). -/
theorem exec_pass_raises {r : FaultRecord}
    (h : (i = .drain ∧ s.InHandler (.drain .s3)) ∨ (i = .prime ∧ s.InMainline (.primeP2 .s3)) ∨
      (i = .drain ∧ s.InMainline (.drain .s3)))
    (hr : PassRaises s .s3 r) : exec i s = .next { s with fault := some r } := by
  have hf : s.fault = none := h.elim (·.2.fault) (·.elim (·.2.fault) (·.2.fault))
  rw [← State.raise_of_none hf]
  obtain ⟨rfl, h⟩ | ⟨rfl, h⟩ | ⟨rfl, h⟩ := h
  · exact (exec_drain_of_hand h).trans (runPass_raises hr)
  · exact (exec_prime_of_p2 h).trans (runPass_raises hr)
  · exact (exec_drain_of_main h.fault h.ctx (.inr h.mstate)).trans (runPass_raises hr)

/-- Settles O29: the two ways S3 raises. -/
theorem drainPassFaults : Obligations.DrainPassFaults := by
  unfold Obligations.DrainPassFaults
  exact fun s i hrc h => ⟨fun hb => exec_pass_raises h (.unwritten hrc hb), fun b hb hr =>
    ⟨push_not_ready hr b, exec_pass_raises h (.notReady b hrc hb hr)⟩⟩

end Sys2Proof.Machine
end

section
/-! PROOF. Where a run can stop (60_exceptions.md R153): with the invariant every enabled turn answers a state, so an
unfaulted state steps or is the BLOCKING hold (O11); a final state accounts for every byte (O12); and a word placed at
`pc` runs next (O25). -/

namespace Sys2Proof.Machine

variable {s : State} {turn : Turn} {i : Instr} {m : MState}

/-! ### A mainline step answers a state -/

theorem prologue_answers (t : State) : ∃ u, prologue i s (.next t) = .next u := by
  unfold prologue
  split <;> exact ⟨_, rfl⟩

/-- Inside a command, the command at `pc` is the one under way (R35). -/
theorem Inv.fetches_of_not_idle (I : Inv s) (h : s.mstate ≠ .idle) : ∃ i, s.Fetches i := by
  cases hm : s.mstate with
  | idle => exact absurd hm h
  | enqbS1 => obtain ⟨-, b, hb⟩ := I.mainline_at hm; exact ⟨_, hb⟩
  | enqbS2 | enqbS3 => obtain ⟨⟨b, -, hb, -⟩, -⟩ := I.mainline_at hm; exact ⟨_, hb⟩
  | enqbS4 => obtain ⟨⟨b, ⟨-, hb, -⟩, -⟩, -⟩ := I.mainline_at hm; exact ⟨_, hb⟩
  | primeP1 => obtain ⟨-, hb⟩ := I.mainline_at hm; exact ⟨_, hb⟩
  | primeP2 | primeP3 | drain => obtain ⟨-, hb, -⟩ := I.mainline_at hm; exact ⟨_, hb⟩

/-- The command at `pc` answers a state at every micro-state that the invariant allows. -/
theorem Inv.exec_answers (I : Inv s) (hb : s.Fetches i) (h : s.InMainline m) : ∃ t, exec i s = .next t := by
  cases m with
  | idle =>
    cases hi : i.issuableIn .mainline with
    | true =>
      obtain ⟨u, hu⟩ := exec_at_idle h hi
      rw [hu]
      exact prologue_answers u
    | false => exact ⟨_, exec_wrong_context h.fault (by rwa [h.ctx])⟩
  | enqbS1 =>
    obtain ⟨-, b, hb'⟩ := I.mainline_at h.mstate
    cases hb.unique hb'
    rw [exec_enqb_at_s1 (.inr h)]
    exact enqbS1_answers b s
  | enqbS2 r n =>
    obtain ⟨⟨b, -, hb', -⟩, hp, -⟩ := I.mainline_at h.mstate
    cases hb.unique hb'
    by_cases hn : n = r
    · exact ⟨_, (exec_enqb_of_s2 h).trans (enqbS2_full hp hn)⟩
    · exact ⟨_, (exec_enqb_of_s2 h).trans (enqbS2_fits hp hn)⟩
  | enqbS3 r n =>
    obtain ⟨⟨b, -, hb', -⟩, -⟩ := I.mainline_at h.mstate
    cases hb.unique hb'
    exact ⟨_, (exec_enqb_of_s3 h).trans (enqbS3_store I.wc_lt)⟩
  | enqbS4 r n =>
    obtain ⟨⟨b, ⟨-, hb', -⟩, -⟩, -⟩ := I.mainline_at h.mstate
    cases hb.unique hb'
    exact ⟨_, exec_enqb_of_s4 h⟩
  | primeP1 =>
    obtain ⟨-, hb'⟩ := I.mainline_at h.mstate
    cases hb.unique hb'
    exact ⟨_, exec_prime_at_p1 (.inr h)⟩
  | primeP2 d =>
    obtain ⟨-, hb', -⟩ := I.mainline_at h.mstate
    cases hb.unique hb'
    rw [exec_prime_of_p2 h]
    exact runPass_answers fun _ => I.rc_lt
  | primeP3 =>
    obtain ⟨-, hb', -⟩ := I.mainline_at h.mstate
    cases hb.unique hb'
    exact ⟨_, exec_prime_of_p3 h⟩
  | drain d =>
    obtain ⟨-, hb', -⟩ := I.mainline_at h.mstate
    cases hb.unique hb'
    rw [exec_drain_of_main h.fault h.ctx (.inr h.mstate)]
    exact runPass_answers fun _ => I.rc_lt

/-- The mainline's step answers a state wherever there is a command at `pc`; an illegal word is never under way. -/
theorem Inv.mainlineStep_answers (I : Inv s) (o : s.Main) (hpc : s.pc < s.prog.length) :
    ∃ t, mainlineStep s = .next t := by
  have hw : s.fetch = some s.prog[s.pc] := List.getElem?_eq_getElem hpc
  rw [mainlineStep_of_fetch hw]
  cases hd : decode s.prog[s.pc] with
  | ok i =>
    rw [runWord_legal hd]
    exact I.exec_answers ⟨_, hw, hd⟩ ⟨o.fault, o.ctx, rfl⟩
  | error e =>
    have hm : s.mstate = .idle := by
      by_contra hm
      obtain ⟨i, w, hw', hd'⟩ := I.fetches_of_not_idle hm
      cases hw.symm.trans hw'
      cases hd.symm.trans hd'
    exact ⟨_, runWord_illegal hd hm⟩

/-! ### Every enabled turn answers a state -/

theorem Inv.handlerStep_answers (I : Inv s) (o : s.Hand) : ∃ t, handlerStep s = .next t := by
  unfold handlerStep
  cases hs : s.hstate with
  | drain d =>
    have h : s.InHandler (.drain d) := ⟨o.fault, o.ctx, hs⟩
    rw [HState.command, exec_drain_of_hand h]
    exact runPass_answers fun _ => I.rc_lt
  | clrf => exact ⟨_, exec_clrf_of_hand ⟨o.fault, o.ctx, hs⟩⟩
  | iret => exact ⟨_, exec_iret_of_hand ⟨o.fault, o.ctx, hs⟩⟩

/-- A run of the handler answers a state, however many steps it is allowed: each step keeps the invariant. -/
theorem Inv.runHandler_answers (I : Inv s) (k : Nat) : ∃ t, runHandler k s = .next t := by
  induction k generalizing s with
  | zero => exact ⟨_, rfl⟩
  | succ k ih =>
    unfold runHandler
    split
    case isFalse => exact ⟨_, rfl⟩
    case isTrue he =>
      have o := enabled_handler.mp he
      obtain ⟨u, hu⟩ := I.handlerStep_answers o
      rw [hu]
      exact ih (I.micro (micro_of_handlerStep o hu))

/-- With the invariant, the step of an enabled turn is a next state: no fault, no refusal. -/
theorem Inv.takeTurn_answers (I : Inv s) (he : s.enabled turn = true) : ∃ t, takeTurn turn s = .next t := by
  cases turn with
  | handler =>
    unfold takeTurn
    simp only
    split
    · exact I.runHandler_answers _
    · exact I.handlerStep_answers (enabled_handler.mp he)
  | entry =>
    obtain ⟨o, hirq⟩ := enabled_entry.mp he
    unfold takeTurn
    simp only
    split
    · exact (I.micro (.entry o hirq)).runHandler_answers _
    · exact ⟨_, rfl⟩
  | mainline =>
    obtain ⟨o, hpc, -⟩ := enabled_mainline.mp he
    exact I.mainlineStep_answers o hpc
  | line => exact ⟨_, rfl⟩

/-! ### Quiescent states -/

/-- In a quiescent state no turn is enabled. -/
theorem State.Quiescent.not_enabled (h : s.Quiescent) (turn : Turn) : ¬ s.enabled turn = true := by
  rw [← State.mem_enabledTurns, h]
  exact List.not_mem_nil

/-- A hold is a full buffer at an `ENQB` under BLOCKING (R83). -/
theorem State.of_holds (h : s.holds = true) :
    s.params.enqPolicy = .blocking ∧ s.atEnqb = true ∧ s.next s.wc = s.rc := by
  simp only [State.holds, Bool.and_eq_true, decide_eq_true_eq] at h
  obtain ⟨⟨hp, hat⟩, hfull⟩ := h
  refine ⟨hp, ?_, State.isFull_iff.mp hfull⟩
  unfold State.atEnqbS1 at hat
  split at hat
  case h_1 => exact (Bool.and_eq_true_iff.mp hat).2
  case h_2 => exact hat
  all_goals cases hat

/-- A quiescent state is the mainline's, with no request and nothing in the peripheral: else the handler, entry or
`LINE` had a step. -/
theorem Inv.quiescent (I : Inv s) (hf : s.fault = none) (h : s.Quiescent) :
    s.Main ∧ s.irq = false ∧ s.txq = [] := by
  have o : s.Main := by
    refine ⟨hf, ?_⟩
    cases hc : s.ctx with
    | mainline => rfl
    | interrupt => exact absurd (enabled_handler.mpr ⟨hf, hc⟩) (h.not_enabled .handler)
  refine ⟨o, Bool.eq_false_iff.mpr fun hi => h.not_enabled .entry (enabled_entry.mpr ⟨o, hi⟩), ?_⟩
  by_contra hq
  have hcfg : s.cfg = true := by
    by_contra hc
    obtain ⟨-, -, -, -, hnil, -⟩ := I.unconfigured (Bool.eq_false_iff.mpr hc)
    exact hq hnil
  refine h.not_enabled .line (enabled_line.mpr ⟨hf, I.txen_cfg.trans hcfg, hq, fun ⟨_, hc⟩ => ?_⟩)
  cases o.ctx.symm.trans hc

/-- A stuck state that meets the invariant is the BLOCKING hold (R168): past the last command it would be final. -/
theorem Inv.stuck_holds (I : Inv s) (hf : s.fault = none) (h : s.Stuck) : s.holds = true := by
  obtain ⟨hquiet, hend⟩ := h
  obtain ⟨o, hirq, hq⟩ := I.quiescent hf hquiet
  by_contra hh
  have hpc : ¬ s.pc < s.prog.length := fun hpc =>
    hquiet.not_enabled .mainline (enabled_mainline.mpr ⟨o, hpc, Bool.eq_false_iff.mpr hh⟩)
  have hm : s.mstate = .idle := by
    by_contra hm
    obtain ⟨i, hb⟩ := I.fetches_of_not_idle hm
    exact hpc hb.pc_lt
  have hlast : s.pc = s.prog.length := le_antisymm I.pc_le (Nat.not_lt.mp hpc)
  simp [State.atEnd, hf, o.ctx, hirq, hq, hm, hlast] at hend

/-- Settles O11: a turn that is taken answers a state; with none to take, the state is final or the hold. -/
theorem onlyTheBlockingHoldSticks : Obligations.OnlyTheBlockingHoldSticks := by
  unfold Obligations.OnlyTheBlockingHoldSticks
  intro s I hf
  cases hc : s.chosenTurn with
  | some turn =>
    have he : s.spend.enabled turn = true := by
      rw [State.spend_enabled]
      exact State.chosenTurn_enabled hc
    rw [step_turn I.params_ok hf hc]
    exact .inl (I.spend.takeTurn_answers he)
  | none =>
    have hquiet := State.chosenTurn_none.mp hc
    cases hend : s.atEnd with
    | true => exact .inl ⟨s, step_final I.params_ok hf ⟨hquiet, hend⟩⟩
    | false =>
      have hstuck : s.Stuck := ⟨hquiet, hend⟩
      obtain ⟨o, hirq, hq⟩ := I.quiescent hf hquiet
      obtain ⟨hp, hat, hfull⟩ := State.of_holds (I.stuck_holds hf hstuck)
      exact .inr ⟨step_stuck I.params_ok hf hstuck, hstuck, o.ctx, hp, hat, hfull, hirq, hq⟩

/-- Settles O12: with nothing in the peripheral and no pass under way, R42 (f) has two parts left. -/
theorem finalStateAccountsForEveryByte : Obligations.FinalStateAccountsForEveryByte := by
  unfold Obligations.FinalStateAccountsForEveryByte
  intro s I F ⟨_, hend⟩
  simp only [State.atEnd, Bool.and_eq_true, Option.isNone_iff_eq_none, decide_eq_true_eq,
    List.isEmpty_iff] at hend
  obtain ⟨⟨⟨⟨⟨hf, -⟩, hm⟩, hc⟩, -⟩, hq⟩ := hend
  have ha : s.afterPush = false := by rw [I.afterPush_main ⟨hf, hc⟩, hm]; rfl
  have h := F.enqueued
  rwa [hq, List.append_nil, unpushed_eq_queued ha] at h

/-! ### A placed word (log entry 3) -/

/-- The placed word stands at its index, past the end of the command stream too. -/
theorem getElem?_placeWord (prog : List Word) (i : Nat) (w : Word) : (placeWord prog i w)[i]? = some w := by
  have hlen : (prog.take i ++ List.replicate (i - prog.length) 0#16).length = i := by
    rw [List.length_append, List.length_take, List.length_replicate]
    omega
  unfold placeWord
  rw [List.getElem?_append_right hlen.le, hlen, Nat.sub_self]
  rfl

theorem State.placeNext_fetch (s : State) (w : Word) : (s.placeNext w).fetch = some w :=
  getElem?_placeWord s.prog s.pc w

/-- The word's 16 bits are the word. -/
theorem State.withFetchWord_toNat (s : State) (w : Word) : s.withFetchWord 16 w.toNat = s.placeNext w := by
  unfold State.withFetchWord
  rw [Nat.mod_eq_of_lt w.isLt, BitVec.ofNat_toNat, BitVec.setWidth_eq]

/-- The mainline's turn stands first in the schedule, and is enabled if the mainline does not hold. -/
theorem State.placeNext_chosenTurn (hh : (s.placeNext w).holds = false) :
    (s.placeNext w).chosenTurn = some .mainline := by
  have hpc : (s.placeNext w).pc < (s.placeNext w).prog.length :=
    (List.getElem?_eq_some_iff.mp (s.placeNext_fetch w)).1
  exact State.chosenTurn_named rfl (enabled_mainline.mpr ⟨⟨rfl, rfl⟩, hpc, hh⟩)

/-- Settles O25. -/
theorem placedWordRunsNext : Obligations.PlacedWordRunsNext := by
  unfold Obligations.PlacedWordRunsNext
  refine fun s w hp hh => ⟨s.placeNext_fetch w, s.withFetchWord_toNat w, ?_⟩
  rw [s.withFetchWord_toNat]
  calc step (s.placeNext w)
    _ = mainlineStep (s.placeNext w).spend := step_turn (s := s.placeNext w) hp rfl (State.placeNext_chosenTurn hh)
    _ = runWord w (s.placeNext w).spend := mainlineStep_of_fetch (s.placeNext_fetch w)

end Sys2Proof.Machine
end

section
/-! PROOF. Launch (70_reset_and_hazards.md): the reset state is as R160 lists it (O5), and every launched state meets the
invariant and the FIFO relation (O7). -/

namespace Sys2Proof.Machine

variable (p : Params) (prog : List Word) (sched : List Turn)

/-! ### The reset state (R160) -/

theorem reset_eq_launch : State.reset = State.launch .default [] [] := rfl

/-- Settles O5: `launch` changes no element of `State.reset` that R160 lists. -/
theorem resetStateIsAsR160Says : Obligations.ResetStateIsAsR160Says := by
  unfold Obligations.ResetStateIsAsR160Says
  refine ⟨fun p prog sched => ⟨Memory.read_nil, ?_⟩, _, _, _, reset_eq_launch⟩
  exact ⟨rfl, rfl, rfl, rfl, rfl, rfl, rfl, rfl, rfl, rfl, rfl, rfl, rfl, rfl, rfl, rfl⟩

/-! ### The launched state's queue and invariant (R42, R164) -/

/-- The cursors stand on the same slot (R23). -/
theorem occ_launch : (State.launch p prog sched).occ = 0 := by
  show occupancy p.capacity 0 0 = 0
  simp [occupancy]

/-- The buffer is empty, and no pass is under way. -/
theorem unpushed_launch : (State.launch p prog sched).unpushed = [] := by
  rw [unpushed_eq_queued rfl, State.queued, occ_launch]
  rfl

/-- Parameters that are not refused leave room for both cursors and the peripheral's queue; nothing is queued,
configured, under way or faulted yet. -/
theorem inv_launch (h : p.check = none) : Inv (State.launch p prog sched) := by
  have hC : 0 < p.capacity := by
    have := not_breaks_of_check h .capacity
    simp only [Breaks] at this
    omega
  exact {
    params_ok := h
    wc_lt := hC
    rc_lt := hC
    written := fun k hk => absurd hk (by rw [occ_launch]; exact Nat.not_lt_zero k)
    txq_le := Nat.zero_le _
    storage_wf := Memory.wf_reset
    storage_lt := fun _ hc => nomatch hc
    txen_cfg := rfl
    unconfigured := fun _ => ⟨rfl, rfl, rfl, rfl, rfl, rfl, rfl⟩
    trunc_nonblocking := fun ht => nomatch ht
    pc_le := Nat.zero_le _
    mainline := trivial
    handler := rfl
    fault_code := fun _ hr => nomatch hr }

/-- No byte is on the line, in the peripheral, in the buffer or in the history. -/
theorem fifo_launch : Fifo (State.launch p prog sched) where
  enqueued := by rw [unpushed_launch]; rfl
  pushed := rfl
  sent := rfl

/-- Settles O7. -/
theorem launchMeetsInvAndFifo : Obligations.LaunchMeetsInvAndFifo := by
  unfold Obligations.LaunchMeetsInvAndFifo
  rintro p prog sched _ ⟨hp, rfl⟩
  exact ⟨inv_launch p prog sched hp, fifo_launch p prog sched⟩

end Sys2Proof.Machine
end
